-- ==== Sys2Proof/Word.lean ====
section
/-! DEFINITION. The sizes of the block (00_scope.md R9): a register, word or word address has 16 bits,
a byte 8, a byte address 17 (20_memory.md R41), and there are 8 general registers (10_state.md R21). -/

namespace Sys2Proof

/-- A 16-bit word: a register's value, a memory word, a word address, `pc`. -/
abbrev Word := BitVec 16

/-- An 8-bit cell of the sparse byte memory. -/
abbrev Byte := BitVec 8

/-- A byte address, 0x00000 to 0x1FFFF (20_memory.md R41). -/
abbrev ByteAddr := BitVec 17

/-- The number of a general register, `r0` to `r7` (10_state.md R21). -/
abbrev RegNo := Fin 8

/-- A flag's value as a number, for the carry that `add` and `sub` read. -/
def flagNat (b : Bool) : Nat := if b then 1 else 0

end Sys2Proof
end

