-- ==== Sys2Proof/Machine/Bytes.lean ====
section
/-! DEFINITION. Byte order: a word is two bytes, high byte first (20_memory.md R53), at the byte addresses
`2a` and `2a + 1` of its word address `a` (R49). -/

namespace Sys2Proof.Machine

/-- The high byte, `(value >> 8) & 0xFF` (20_memory.md R51). -/
def highByte (v : Word) : Byte := v.extractLsb' 8 8

/-- The low byte, `value & 0xFF` (20_memory.md R51). -/
def lowByte (v : Word) : Byte := v.extractLsb' 0 8

/-- The word `(high << 8) | low` (20_memory.md R50). -/
def wordOfBytes (high low : Byte) : Word := high ++ low

/-- The byte address of the high byte of the word at `a`: `2a` (20_memory.md R49). -/
def highByteAddr (a : Word) : ByteAddr := BitVec.ofNat 17 (2 * a.toNat)

/-- The byte address of the low byte of the word at `a`: `2a + 1` (20_memory.md R49). -/
def lowByteAddr (a : Word) : ByteAddr := BitVec.ofNat 17 (2 * a.toNat + 1)

end Sys2Proof.Machine
end

