-- ==== Sys2Proof/Syntax.lean ====
section
/-! DEFINITION. The instructions, one constructor per row of spec/opcode_table.json, with their operands
as the four addressing modes of 30_encoding.md R72. An operand carries its extension word, so the machine
never sees raw encodings. -/

namespace Sys2Proof

/-- An operand: one of the four addressing modes (30_encoding.md R72), with the extension word it
consumes (R73, R74). -/
inductive Operand where
  /-- Mode 0: as a source, the value `n` itself. As a destination it names no location and has no
  extension word (R81), so a well-formed destination has `n = 0`. -/
  | imm (n : Word)
  /-- Mode 1: general register `r`. -/
  | reg (r : RegNo)
  /-- Mode 2: the memory word at the address `a`, the extension word. -/
  | abs (a : Word)
  /-- Mode 3: the memory word at the address that register `r` holds. -/
  | ind (r : RegNo)
  deriving DecidableEq, Repr

/-- The instruction set (30_encoding.md R76). `src` is decoded from the source fields and `dst` from the
destination fields; an instruction has the operands of its operand class (R75). -/
inductive Instr where
  /-- Opcode 0, unrecognised: no operation (45_flags_halt.md R215). -/
  | unrecognised0
  | copy (src dst : Operand)
  | add (src dst : Operand)
  | sub (src dst : Operand)
  /-- Both operands are read as sources (41_move_arith.md R123). -/
  | cmp (src dst : Operand)
  | and (src dst : Operand)
  | or (src dst : Operand)
  | xor (src dst : Operand)
  | inc (dst : Operand)
  | dec (dst : Operand)
  | shl (dst : Operand)
  | shr (dst : Operand)
  | rtl (dst : Operand)
  | rtr (dst : Operand)
  | call (src : Operand)
  | ret
  | reti
  | push (src : Operand)
  | pop (dst : Operand)
  | jmp (src : Operand)
  | jz (src : Operand)
  | jnz (src : Operand)
  | jc (src : Operand)
  | jnc (src : Operand)
  | stc
  | clc
  | ei
  | di
  | halt
  /-- Opcode 29, unrecognised: no operation (45_flags_halt.md R215). -/
  | unrecognised29
  /-- Opcode 30, unrecognised: no operation (45_flags_halt.md R215). -/
  | unrecognised30
  /-- Opcode 31, unrecognised: no operation (45_flags_halt.md R215). -/
  | unrecognised31
  deriving DecidableEq, Repr

end Sys2Proof
end

