-- ==== Sys2Proof/Decode.lean ====
section
/-! DEFINITION. The decoder and the encoder (30_encoding.md). Decoding a word and the two words after it is
total: every word decodes to exactly one instruction (R82). Decoding a list of bytes rejects, by name, only
a list that ends before the instruction does. -/

namespace Sys2Proof

/-! ### The fields of the instruction word (30_encoding.md R70) -/

/-- `w[14:10]`. Bit 15 is not looked at (R71). -/
def opcodeField (w : Word) : BitVec 5 := w.extractLsb' 10 5

/-- `w[9:8]`. -/
def srcMode (w : Word) : BitVec 2 := w.extractLsb' 8 2

/-- `w[7:5]`. -/
def srcReg (w : Word) : RegNo := (w.extractLsb' 5 3).toFin

/-- `w[4:3]`. -/
def dstMode (w : Word) : BitVec 2 := w.extractLsb' 3 2

/-- `w[2:0]`. -/
def dstReg (w : Word) : RegNo := (w.extractLsb' 0 3).toFin

/-! ### Operand words (30_encoding.md R72 to R77) -/

/-- `ext(m)`: the extension words a source of mode `m` consumes (30_encoding.md R77). -/
def sourceExt (m : BitVec 2) : Nat := if m = 0 ∨ m = 2 then 1 else 0

/-- `dext(m)`: the extension words a destination of mode `m` consumes (30_encoding.md R77). -/
def destExt (m : BitVec 2) : Nat := if m = 2 then 1 else 0

/-- The extension words of an operand used as a source, none or one (30_encoding.md R72, R74). -/
def Operand.sourceWords : Operand → List Word
  | .imm n => [n]
  | .reg _ => []
  | .abs a => [a]
  | .ind _ => []

/-- The extension words of an operand used as a destination: mode 0 has none (30_encoding.md R81). -/
def Operand.destWords : Operand → List Word
  | .imm _ => []
  | .reg _ => []
  | .abs a => [a]
  | .ind _ => []

/-- The source operand of mode `m` and register field `r`, with `e` the next extension word
(30_encoding.md R72, R73). -/
def sourceOperand (m : BitVec 2) (r : RegNo) (e : Word) : Operand :=
  if m = 0 then .imm e else if m = 1 then .reg r else if m = 2 then .abs e else .ind r

/-- The destination operand of mode `m` and register field `r`, with `e` the next extension word, which
mode 0 does not consume (30_encoding.md R72, R81). -/
def destOperand (m : BitVec 2) (r : RegNo) (e : Word) : Operand :=
  if m = 0 then .imm 0 else if m = 1 then .reg r else if m = 2 then .abs e else .ind r

/-- The extension word left for the destination fields of `w`: the source's comes first (30_encoding.md
R74). -/
def wordAfterSource (w e1 e2 : Word) : Word := if sourceExt (srcMode w) = 1 then e2 else e1

/-- The source operand of the word `w` followed by `e1`. -/
def sourceOf (w e1 : Word) : Operand := sourceOperand (srcMode w) (srcReg w) e1

/-- The destination operand of an `SD` word `w` followed by `e1` and `e2`. -/
def destAfterSource (w e1 e2 : Word) : Operand :=
  destOperand (dstMode w) (dstReg w) (wordAfterSource w e1 e2)

/-- The second source of an `SS` word `w` followed by `e1` and `e2`, from its destination fields. -/
def secondSource (w e1 e2 : Word) : Operand :=
  sourceOperand (dstMode w) (dstReg w) (wordAfterSource w e1 e2)

/-- The destination operand of a `D` word `w` followed by `e1`: the source fields are not decoded
(30_encoding.md R75). -/
def destOf (w e1 : Word) : Operand := destOperand (dstMode w) (dstReg w) e1

/-! ### The opcode map -/

/-- The instruction that the word `w` begins, followed in memory by `e1` and `e2` (30_encoding.md R76). -/
def decode (w e1 e2 : Word) : Instr :=
  match (opcodeField w).toNat with
  | 0 => .unrecognised0
  | 1 => .copy (sourceOf w e1) (destAfterSource w e1 e2)
  | 2 => .add (sourceOf w e1) (destAfterSource w e1 e2)
  | 3 => .sub (sourceOf w e1) (destAfterSource w e1 e2)
  | 4 => .cmp (sourceOf w e1) (secondSource w e1 e2)
  | 5 => .and (sourceOf w e1) (destAfterSource w e1 e2)
  | 6 => .or (sourceOf w e1) (destAfterSource w e1 e2)
  | 7 => .xor (sourceOf w e1) (destAfterSource w e1 e2)
  | 8 => .inc (destOf w e1)
  | 9 => .dec (destOf w e1)
  | 10 => .shl (destOf w e1)
  | 11 => .shr (destOf w e1)
  | 12 => .rtl (destOf w e1)
  | 13 => .rtr (destOf w e1)
  | 14 => .call (sourceOf w e1)
  | 15 => .ret
  | 16 => .reti
  | 17 => .push (sourceOf w e1)
  | 18 => .pop (destOf w e1)
  | 19 => .jmp (sourceOf w e1)
  | 20 => .jz (sourceOf w e1)
  | 21 => .jnz (sourceOf w e1)
  | 22 => .jc (sourceOf w e1)
  | 23 => .jnc (sourceOf w e1)
  | 24 => .stc
  | 25 => .clc
  | 26 => .ei
  | 27 => .di
  | 28 => .halt
  | 29 => .unrecognised29
  | 30 => .unrecognised30
  | _ => .unrecognised31

/-- The length of an instruction in words, 1 to 3 (30_encoding.md R77). -/
def Instr.length : Instr → Nat
  | .unrecognised0 => 1
  | .copy src dst => 1 + src.sourceWords.length + dst.destWords.length
  | .add src dst => 1 + src.sourceWords.length + dst.destWords.length
  | .sub src dst => 1 + src.sourceWords.length + dst.destWords.length
  | .cmp src dst => 1 + src.sourceWords.length + dst.sourceWords.length
  | .and src dst => 1 + src.sourceWords.length + dst.destWords.length
  | .or src dst => 1 + src.sourceWords.length + dst.destWords.length
  | .xor src dst => 1 + src.sourceWords.length + dst.destWords.length
  | .inc dst => 1 + dst.destWords.length
  | .dec dst => 1 + dst.destWords.length
  | .shl dst => 1 + dst.destWords.length
  | .shr dst => 1 + dst.destWords.length
  | .rtl dst => 1 + dst.destWords.length
  | .rtr dst => 1 + dst.destWords.length
  | .call src => 1 + src.sourceWords.length
  | .ret => 1
  | .reti => 1
  | .push src => 1 + src.sourceWords.length
  | .pop dst => 1 + dst.destWords.length
  | .jmp src => 1 + src.sourceWords.length
  | .jz src => 1 + src.sourceWords.length
  | .jnz src => 1 + src.sourceWords.length
  | .jc src => 1 + src.sourceWords.length
  | .jnc src => 1 + src.sourceWords.length
  | .stc => 1
  | .clc => 1
  | .ei => 1
  | .di => 1
  | .halt => 1
  | .unrecognised29 => 1
  | .unrecognised30 => 1
  | .unrecognised31 => 1

/-! ### Decoding bytes -/

/-- Why a list of bytes holds no instruction. -/
inductive DecodeError where
  /-- The bytes end before the instruction word, or one of its extension words, is complete. -/
  | truncated
  deriving DecidableEq, Repr

/-- The words of a list of bytes, high byte first (20_memory.md R53); a last odd byte is no word. -/
def wordsOfBytes : List Byte → List Word
  | high :: low :: rest => Machine.wordOfBytes high low :: wordsOfBytes rest
  | _ => []

/-- The instruction at the head of a list of words, and the words after it. -/
def decodeWords (ws : List Word) : Except DecodeError (Instr × List Word) :=
  match ws with
  | [] => .error .truncated
  | w :: rest =>
    let i := decode w (rest.getD 0 0) (rest.getD 1 0)
    if i.length ≤ ws.length then .ok (i, ws.drop i.length) else .error .truncated

/-- The instruction at the head of a list of bytes, laid out as memory stores it, and the bytes after
it. -/
def decodeBytes (bs : List Byte) : Except DecodeError (Instr × List Byte) :=
  match decodeWords (wordsOfBytes bs) with
  | .ok (i, _) => .ok (i, bs.drop (2 * i.length))
  | .error e => .error e

/-! ### The encoder -/

/-- The instruction word with bit 15 clear: `opcode || src_mode || src_reg || dst_mode || dst_reg`
(30_encoding.md R70, R71). -/
def instrWord (op : BitVec 5) (sm : BitVec 2) (sr : RegNo) (dm : BitVec 2) (dr : RegNo) : Word :=
  0#1 ++ op ++ sm ++ BitVec.ofFin (w := 3) sr ++ dm ++ BitVec.ofFin (w := 3) dr

/-- The mode field of an operand (30_encoding.md R72). -/
def Operand.mode : Operand → BitVec 2
  | .imm _ => 0
  | .reg _ => 1
  | .abs _ => 2
  | .ind _ => 3

/-- The register field of an operand, 0 where the mode ignores it (30_encoding.md R90). -/
def Operand.regField : Operand → RegNo
  | .imm _ => 0
  | .reg r => r
  | .abs _ => 0
  | .ind r => r

/-- The words of an `SD` instruction with opcode `op`. -/
def encodeSD (op : BitVec 5) (src dst : Operand) : List Word :=
  instrWord op src.mode src.regField dst.mode dst.regField :: (src.sourceWords ++ dst.destWords)

/-- The words of an `SS` instruction with opcode `op`. -/
def encodeSS (op : BitVec 5) (src dst : Operand) : List Word :=
  instrWord op src.mode src.regField dst.mode dst.regField :: (src.sourceWords ++ dst.sourceWords)

/-- The words of a `D` instruction with opcode `op`. -/
def encodeD (op : BitVec 5) (dst : Operand) : List Word :=
  instrWord op 0 0 dst.mode dst.regField :: dst.destWords

/-- The words of an `S` instruction with opcode `op`. -/
def encodeS (op : BitVec 5) (src : Operand) : List Word :=
  instrWord op src.mode src.regField 0 0 :: src.sourceWords

/-- The word of an `N` instruction with opcode `op`. -/
def encodeN (op : BitVec 5) : List Word := [instrWord op 0 0 0 0]

/-- The words of a well-formed instruction, with 0 in bit 15 and in every ignored field (30_encoding.md
R70, R76, R90). -/
def encode : Instr → List Word
  | .unrecognised0 => encodeN 0
  | .copy src dst => encodeSD 1 src dst
  | .add src dst => encodeSD 2 src dst
  | .sub src dst => encodeSD 3 src dst
  | .cmp src dst => encodeSS 4 src dst
  | .and src dst => encodeSD 5 src dst
  | .or src dst => encodeSD 6 src dst
  | .xor src dst => encodeSD 7 src dst
  | .inc dst => encodeD 8 dst
  | .dec dst => encodeD 9 dst
  | .shl dst => encodeD 10 dst
  | .shr dst => encodeD 11 dst
  | .rtl dst => encodeD 12 dst
  | .rtr dst => encodeD 13 dst
  | .call src => encodeS 14 src
  | .ret => encodeN 15
  | .reti => encodeN 16
  | .push src => encodeS 17 src
  | .pop dst => encodeD 18 dst
  | .jmp src => encodeS 19 src
  | .jz src => encodeS 20 src
  | .jnz src => encodeS 21 src
  | .jc src => encodeS 22 src
  | .jnc src => encodeS 23 src
  | .stc => encodeN 24
  | .clc => encodeN 25
  | .ei => encodeN 26
  | .di => encodeN 27
  | .halt => encodeN 28
  | .unrecognised29 => encodeN 29
  | .unrecognised30 => encodeN 30
  | .unrecognised31 => encodeN 31

/-- The bytes of a list of words, as memory stores them (20_memory.md R53). -/
def bytesOfWords : List Word → List Byte
  | [] => []
  | w :: ws => Machine.highByte w :: Machine.lowByte w :: bytesOfWords ws

/-- The bytes of a well-formed instruction, as memory stores them. -/
def encodeBytes (i : Instr) : List Byte := bytesOfWords (encode i)

/-! ### The host's numbering of the opcode table -/

/-- The three words of an instruction whose bits are the low `nbits` bits of `w`, the first word lowest
and every bit above `nbits` zero. -/
def tableWords (nbits w : Nat) : List Word :=
  let v := w % 2 ^ nbits
  [BitVec.ofNat 16 v, BitVec.ofNat 16 (v / 2 ^ 16), BitVec.ofNat 16 (v / 2 ^ 32)]

/-- The instruction the decoder reads from bits numbered as spec/opcode_table.json numbers them. -/
def decodeTableWord (nbits w : Nat) : Option Instr :=
  match decodeBytes (bytesOfWords (tableWords nbits w)) with
  | .ok (i, _) => some i
  | .error _ => none

end Sys2Proof
end

