-- ==== Sys2Proof/Config.lean ====
section
/-! DEFINITION. The implementation parameters of 00_scope.md R10 at their reference values, and the one
the spec leaves OPEN, `POP_VARIANT`, as a constant without a body. The machine reads each parameter from
its State, where these values stand at reset, so a statement about every state is about every value. -/

namespace Sys2Proof

/-- The three readings of `pop` that the spec admits (44_control_stack.md R193). They differ only for
`pop r7`, `pop [r7]` and `pop` with destination mode 0. -/
inductive PopVariant where
  /-- Variant `A`: read, write the destination, then increment `r7`. -/
  | variantA
  /-- Variant `B`: find the location, then read and increment `r7`, then write the location. -/
  | variantB
  /-- Variant `C`: read, increment `r7`, then find and write the destination. -/
  | variantC
  deriving DecidableEq, Repr, Inhabited

namespace Config

/-- `INIT_BYTE` of the reference configuration (00_scope.md R10). -/
def initByte : Byte := 0x00

/-- The base-2 logarithm of the reference `FRAGMENT_SIZE`, 2^17 (00_scope.md R10). -/
def fragLog : Fin 18 := 17

/-- `STRICT_DST_MODE0` of the reference configuration: the source's tolerant default (00_scope.md R10). -/
def strictDstMode0 : Bool := false

/-- `POP_VARIANT` of the hardware. OPEN in the spec (00_scope.md R10, 44_control_stack.md R193,
92_eei_decisions.md D9), so it has no body: nothing can be proved of which of the three it is.
DESIGN CHOICE, safe: assumption log entry 1. -/
opaque popVariant : PopVariant

end Config
end Sys2Proof
end

