-- ==== Sys2Proof/Machine/State.lean ====
section
/-! DEFINITION. The state the spec gives the block (10_state.md), with the parameters it is built with
(00_scope.md R10), as plain data; the reasons a step can stop; and the state after reset. -/

namespace Sys2Proof.Machine

/-- The sparse byte memory (20_memory.md R40 to R47): its two construction parameters, its fragments and
its contents. A fragment's length is `FRAGMENT_SIZE` and its bytes are the contents it covers, so the list
of fragments is held as the list of their starts (assumption log entry 3). -/
structure Memory where
  /-- `INIT_BYTE`: what every byte that no write has touched reads as (20_memory.md R43). -/
  initByte : Byte
  /-- The base-2 logarithm of `FRAGMENT_SIZE`, a power of two from 1 to 2^17 (00_scope.md R10). -/
  fragLog : Fin 18
  /-- The starts of the allocated fragments, ascending (20_memory.md R42). -/
  fragments : List Nat
  /-- The bytes that differ from `initByte`, by ascending byte address. -/
  cells : List Host.Cell
  deriving DecidableEq, Repr

/-- The state of the block. The last two fields are implementation parameters, which no step changes. -/
structure State where
  /-- `x[0]` to `x[7]` (10_state.md R21); `r7` is the stack pointer by convention (R22). -/
  regs : Vector Word 8
  /-- The program counter, a word address (10_state.md R24). -/
  pc : Word
  /-- `C`, the carry flag (10_state.md R26). -/
  c : Bool
  /-- `Z`, the zero flag (10_state.md R26). -/
  z : Bool
  /-- `IE`, the interrupt-enable flag, which nothing reads (10_state.md R28). -/
  ie : Bool
  /-- The sparse byte memory beneath the word memory (20_memory.md). -/
  mem : Memory
  /-- `STRICT_DST_MODE0`: destination mode 0 is a fault, not a no-op (40_operands.md R106). -/
  strictDstMode0 : Bool
  /-- `POP_VARIANT`: the reading of `pop` (44_control_stack.md R193). -/
  popVariant : PopVariant
  deriving DecidableEq, Repr

/-- The status a STEP returns (40_operands.md R100). It is no part of the state (10_state.md R35). -/
inductive Status where
  | continuing
  | halted
  deriving DecidableEq, Repr

/-- Why a step stops with no successor state. -/
inductive Fault where
  /-- Raised by an instruction that writes a destination, when its destination is mode 0 and
  `STRICT_DST_MODE0` is true: the instruction's address and its word (40_operands.md R106,
  60_exceptions.md R232). The spec's own fault; safe. -/
  | invalidDestinationMode (ia w : Word)
  deriving DecidableEq, Repr

/-- Why the model gives no answer. -/
inductive Refusal where
  /-- Raised only by an arm of `exec` whose instruction has no meaning yet; no arm does. Safe. -/
  | notModelled (mnemonic : String)
  /-- Raised by the host's transaction RESET, for a `FRAGMENT_SIZE` that is no power of two from 1 to
  2^17 (93_implementation_defined.md U11). No step raises it. Safe. -/
  | illegalFragmentSize (size : Nat)
  /-- Raised by the host's transaction DBG_RANGE, for a count outside 1 to 65536 (10_state.md R32). No
  step raises it. Safe. -/
  | illegalRangeCount (count : Nat)
  deriving DecidableEq, Repr

/-- A newly constructed memory: no fragment, every byte reads `initByte` (20_memory.md R42, R47). -/
def Memory.fresh (initByte : Byte) (fragLog : Fin 18) : Memory :=
  { initByte := initByte, fragLog := fragLog, fragments := [], cells := [] }

/-- RESET, the construction of the block (70_reset_and_hazards.md R250): every register, `pc` and flag 0,
and a fresh memory. The four parameters of 00_scope.md R10 are its arguments. -/
def State.construct (initByte : Byte) (fragLog : Fin 18) (strictDstMode0 : Bool)
    (popVariant : PopVariant) : State :=
  { regs := Vector.replicate 8 0
    pc := 0
    c := false
    z := false
    ie := false
    mem := Memory.fresh initByte fragLog
    strictDstMode0 := strictDstMode0
    popVariant := popVariant }

/-- The machine right after reset (10_state.md R36), in the reference configuration of 00_scope.md R10,
with `POP_VARIANT` left open. -/
def State.reset : State :=
  State.construct Config.initByte Config.fragLog Config.strictDstMode0 Config.popVariant

end Sys2Proof.Machine
end

