-- ==== Sys2Proof/Machine/Memory.lean ====
section
/-! DEFINITION. The sparse byte memory and the word memory adapter over it (20_memory.md). -/

namespace Sys2Proof.Machine

/-- `FRAGMENT_SIZE`, the bytes of every fragment (20_memory.md R42). -/
def Memory.fragmentSize (m : Memory) : Nat := 2 ^ m.fragLog.val

/-- What a byte address that is not listed reads as: `INIT_BYTE` (20_memory.md R43). -/
def Memory.unlisted (m : Memory) : Byte := m.initByte

/-- The byte listed at address `b`, or `init` where none is. -/
def cellAt (init : Byte) (b : Nat) : List Host.Cell → Byte
  | [] => init
  | (a, x) :: rest => if a = b then x else cellAt init b rest

/-- The list with `v` at address `b`: in ascending order, and listing nothing that reads as `init`. -/
def setCell (init : Byte) (b : Nat) (v : Byte) : List Host.Cell → List Host.Cell
  | [] => if v = init then [] else [(b, v)]
  | (a, x) :: rest =>
    if b < a then (if v = init then (a, x) :: rest else (b, v) :: (a, x) :: rest)
    else if b = a then (if v = init then rest else (b, v) :: rest)
    else (a, x) :: setCell init b v rest

/-- The aligned start of the fragment a write to `b` allocates: `b & ~(FRAGMENT_SIZE - 1)`, which for a
power of two is the largest multiple of it up to `b` (20_memory.md R44, 00_scope.md R17). -/
def chunkStart (size b : Nat) : Nat := b / size * size

/-- The fragment list after a write to byte `b`: unchanged where a fragment covers `b`, else with a new
fragment spliced in before the first that starts above `b` (20_memory.md R44). -/
def allocate (size b : Nat) : List Nat → List Nat
  | [] => [chunkStart size b]
  | f :: rest =>
    if f ≤ b ∧ b < f + size then f :: rest
    else if b < f then chunkStart size b :: f :: rest
    else f :: allocate size b rest

/-- `ByteRead(b)` (20_memory.md R43). -/
def Memory.byteRead (m : Memory) (b : ByteAddr) : Byte := cellAt m.unlisted b.toNat m.cells

/-- `ByteWrite(b, v)` (20_memory.md R44). -/
def Memory.byteWrite (m : Memory) (b : ByteAddr) (v : Byte) : Memory :=
  { m with
    fragments := allocate m.fragmentSize b.toNat m.fragments
    cells := setCell m.unlisted b.toNat v m.cells }

/-- `MemRead(a, 2)` (20_memory.md R50). -/
def Memory.readWord (m : Memory) (a : Word) : Word :=
  wordOfBytes (m.byteRead (highByteAddr a)) (m.byteRead (lowByteAddr a))

/-- `MemWrite(a, 2, v)`, the high byte first (20_memory.md R51). -/
def Memory.writeWord (m : Memory) (a v : Word) : Memory :=
  (m.byteWrite (highByteAddr a) (highByte v)).byteWrite (lowByteAddr a) (lowByte v)

/-- `n` words from word address `a` on, wrapping modulo 2^16 (10_state.md R32, DBG_RANGE). -/
def Memory.readWords (m : Memory) (a : Word) : Nat → List Word
  | 0 => []
  | n + 1 => m.readWord a :: m.readWords (a + 1) n

/-- The words `ws` written one after another from word address `a` on (70_reset_and_hazards.md R253). -/
def Memory.writeWords (m : Memory) (a : Word) : List Word → Memory
  | [] => m
  | w :: ws => (m.writeWord a w).writeWords (a + 1) ws

/-- The fragment list `F` as the spec writes it: each fragment's start and its bytes (20_memory.md R42). -/
def Memory.fragmentList (m : Memory) : List (Nat × List Byte) :=
  m.fragments.map fun start =>
    (start, (List.range m.fragmentSize).map fun k => cellAt m.unlisted (start + k) m.cells)

/-- Some fragment covers the byte address `b` (20_memory.md R42). -/
abbrev Memory.covered (m : Memory) (b : Nat) : Prop :=
  ∃ f ∈ m.fragments, f ≤ b ∧ b < f + m.fragmentSize

/-- The canonical form of a memory: cells in strictly ascending order, none equal to what an unlisted
address reads as, each inside a fragment; and the fragments ascending, aligned and inside the 17-bit byte
space, which with their one size makes them disjoint (20_memory.md R42). -/
abbrev Memory.wf (m : Memory) : Prop :=
  (m.cells.map Prod.fst).Pairwise (· < ·) ∧
  (∀ cell ∈ m.cells, cell.2 ≠ m.unlisted) ∧
  (∀ cell ∈ m.cells, m.covered cell.1) ∧
  m.fragments.Pairwise (· < ·) ∧
  (∀ f ∈ m.fragments, f % m.fragmentSize = 0 ∧ f < 2 ^ 17)

end Sys2Proof.Machine
end

