-- ==== Sys2Proof/Machine/Ops.lean ====
section
/-! DEFINITION. The named operations over registers, `pc`, flags and the stack. Every read and write of a
register goes through `State.reg` and `State.setReg`. There is no operation that takes an exception or
returns from one: the hardware raises none and has no trap entry (60_exceptions.md R230, R235, R236). -/

namespace Sys2Proof.Machine

/-- `x[r]` (00_scope.md R14). -/
def State.reg (s : State) (r : RegNo) : Word := s.regs[r]

/-- `x[r] <- v` (00_scope.md R14). No register is hardwired (10_state.md R21). -/
def State.setReg (s : State) (r : RegNo) (v : Word) : State := { s with regs := s.regs.set r v }

/-- `r7`, the register the stack instructions use as `SP` (10_state.md R22). -/
def spReg : RegNo := 7

/-- `SP`, that is `x[7]` (44_control_stack.md). -/
def State.sp (s : State) : Word := s.reg spReg

/-- `SP <- v`. -/
def State.setSp (s : State) (v : Word) : State := s.setReg spReg v

/-- `pc <- a` (00_scope.md R14). -/
def State.jump (s : State) (a : Word) : State := { s with pc := a }

/-- `pc` past `n` words of the instruction, modulo 2^16 (10_state.md R24, 40_operands.md R101). -/
def State.advance (s : State) (n : Nat) : State := s.jump (s.pc + BitVec.ofNat 16 n)

/-- `C <- b`. -/
def State.setC (s : State) (b : Bool) : State := { s with c := b }

/-- `Z <- b`. -/
def State.setZ (s : State) (b : Bool) : State := { s with z := b }

/-- `IE <- b`. -/
def State.setIe (s : State) (b : Bool) : State := { s with ie := b }

/-- `MemRead(a, 2)` in the state's memory. -/
def State.readWord (s : State) (a : Word) : Word := s.mem.readWord a

/-- `MemWrite(a, 2, v)` in the state's memory. -/
def State.writeWord (s : State) (a v : Word) : State := { s with mem := s.mem.writeWord a v }

/-- Push `v`: decrement `r7`, then write the word at the new `r7` (44_control_stack.md R185). -/
def State.push (s : State) (v : Word) : State := (s.setSp (s.sp - 1)).writeWord (s.sp - 1) v

/-- The word a pop reads, at `r7` (44_control_stack.md R185). -/
def State.top (s : State) : Word := s.readWord s.sp

/-- `SP <- (SP + 1) mod 2^16`, after a pop's read (44_control_stack.md R185). -/
def State.dropTop (s : State) : State := s.setSp (s.sp + 1)

/-- Whether destination mode 0 is a fault on this machine (40_operands.md R106). -/
def State.strict (s : State) : Bool := s.strictDstMode0

/-- The reading of `pop` on this machine (44_control_stack.md R193). -/
def State.popOrder (s : State) : PopVariant := s.popVariant

end Sys2Proof.Machine
end

