-- ==== Sys2Proof/Machine/Operands.lean ====
section
/-! DEFINITION. Operand resolution (40_operands.md): the value of a source, the location of a destination,
and the one read-modify-write that every opcode with a destination goes through. An operand holds its
extension word, so none of these reads `pc`. -/

namespace Sys2Proof.Machine

/-- `ResolveSource`: the value of a source operand (40_operands.md R102). -/
def State.source (s : State) : Operand → Word
  | .imm n => n
  | .reg r => s.reg r
  | .abs a => s.readWord a
  | .ind r => s.readWord (s.reg r)

/-- A place a destination operand stands for (40_operands.md R103). -/
inductive Location where
  | reg (r : RegNo)
  | mem (a : Word)
  deriving DecidableEq, Repr

/-- `DestLocation`: the place a destination names, none for mode 0 (40_operands.md R103). -/
def State.destLocation (s : State) : Operand → Option Location
  | .imm _ => none
  | .reg r => some (.reg r)
  | .abs a => some (.mem a)
  | .ind r => some (.mem (s.reg r))

/-- `Read(loc)` (40_operands.md R103). -/
def State.readLoc (s : State) : Location → Word
  | .reg r => s.reg r
  | .mem a => s.readWord a

/-- `Write(loc, v)` (40_operands.md R103). -/
def State.writeLoc (s : State) (loc : Location) (v : Word) : State :=
  match loc with
  | .reg r => s.setReg r v
  | .mem a => s.writeWord a v

/-- What an opcode's function makes of the current value of its destination: the new value, and the flags
it writes, `none` for a flag it does not write (40_operands.md R104). -/
structure Update where
  value : Word
  c : Option Bool
  z : Option Bool
  deriving DecidableEq, Repr

/-- Perform the flag writes of an update. -/
def State.writeFlags (s : State) (u : Update) : State :=
  { s with c := u.c.getD s.c, z := u.z.getD s.z }

/-- `ApplyDest` with `STRICT_DST_MODE0` false: find the location, read it, compute, write it back, write
the flags; nothing at all for mode 0 (40_operands.md R104, R105). -/
def State.applyDest (s : State) (dst : Operand) (f : Word → Update) : State :=
  match s.destLocation dst with
  | none => s
  | some loc => (s.writeLoc loc (f (s.readLoc loc)).value).writeFlags (f (s.readLoc loc))

/-- The step of an opcode with destination `dst` from `s`, whose `pc` is still the instruction's address:
the fault of strict mode where `dst` is mode 0, else `next` (40_operands.md R106). The fault holds the
instruction's address and the word there. -/
def State.checkDest (s : State) (dst : Operand) (next : State) : Host.Outcome State Fault Refusal :=
  if s.strict = true ∧ dst.mode = 0 then .fault (.invalidDestinationMode s.pc (s.readWord s.pc))
  else .next next

/-- The words of an instruction with a source and a destination (30_encoding.md R77, class `SD`). -/
def lengthSD (src dst : Operand) : Nat := 1 + src.sourceWords.length + dst.destWords.length

/-- The words of an instruction with two sources (30_encoding.md R77, class `SS`). -/
def lengthSS (src dst : Operand) : Nat := 1 + src.sourceWords.length + dst.sourceWords.length

/-- The words of an instruction with a destination only (30_encoding.md R77, class `D`). -/
def lengthD (dst : Operand) : Nat := 1 + dst.destWords.length

/-- The words of an instruction with a source only (30_encoding.md R77, class `S`). -/
def lengthS (src : Operand) : Nat := 1 + src.sourceWords.length

/-- An `SD` instruction: resolve the source, then apply `f` of it to the destination (40_operands.md R109),
and leave `pc` past the instruction. -/
def State.applySD (s : State) (f : Word → Word → Update) (src dst : Operand) :
    Host.Outcome State Fault Refusal :=
  s.checkDest dst ((s.applyDest dst (f (s.source src))).advance (lengthSD src dst))

/-- A `D` instruction: apply `f` to the destination, and leave `pc` past the instruction. -/
def State.applyD (s : State) (f : Word → Update) (dst : Operand) :
    Host.Outcome State Fault Refusal :=
  s.checkDest dst ((s.applyDest dst f).advance (lengthD dst))

end Sys2Proof.Machine
end

