-- ==== Sys2Proof/Machine/Flags.lean ====
section
/-! DEFINITION. What each opcode with a destination computes from its operands: the new value and the
flags it writes. Sums and differences are computed exactly and then reduced modulo 2^16 (00_scope.md R13). -/

namespace Sys2Proof.Machine

/-- `SetZ(v)`: 1 iff the 16-bit result is 0 (40_operands.md R107). -/
def zeroFlag (v : Word) : Bool := v == 0

/-- `copy`: the source, and no flag (41_move_arith.md R120). -/
def copyUpdate (v _cur : Word) : Update := { value := v, c := none, z := none }

/-- A result that writes `Z` only. -/
def resultZ (res : Word) : Update := { value := res, c := none, z := some (zeroFlag res) }

/-- A result that writes `C` and `Z`. -/
def resultCZ (res : Word) (c : Bool) : Update :=
  { value := res, c := some c, z := some (zeroFlag res) }

/-- `add`: `cur + v + C`, with the carry out (41_move_arith.md R121). -/
def addUpdate (c0 : Bool) (v cur : Word) : Update :=
  let raw := cur.toNat + v.toNat + flagNat c0
  resultCZ (BitVec.ofNat 16 raw) (decide (0xFFFF < raw))

/-- `sub`: `cur - v - C`, with the borrow out (41_move_arith.md R122). -/
def subUpdate (c0 : Bool) (v cur : Word) : Update :=
  let raw : Int := (cur.toNat : Int) - (v.toNat : Int) - (flagNat c0 : Int)
  resultCZ (BitVec.ofInt 16 raw) (decide (raw < 0))

/-- `cmp`'s zero flag: the operands are equal (41_move_arith.md R123). -/
def cmpZ (a b : Word) : Bool := a == b

/-- `cmp`'s carry flag: the second operand is at most the first, unsigned (41_move_arith.md R123). -/
def cmpC (a b : Word) : Bool := decide (b.toNat ≤ a.toNat)

/-- `and` (42_logic_incdec.md R140). -/
def andUpdate (v cur : Word) : Update := resultZ (cur &&& v)

/-- `or` (42_logic_incdec.md R141). -/
def orUpdate (v cur : Word) : Update := resultZ (cur ||| v)

/-- `xor` (42_logic_incdec.md R142). -/
def xorUpdate (v cur : Word) : Update := resultZ (cur ^^^ v)

/-- `inc`; the carry flag is not written, even on a wrap (42_logic_incdec.md R143). -/
def incUpdate (cur : Word) : Update := resultZ (cur + 1)

/-- `dec`; the carry flag is not written, even on a wrap (42_logic_incdec.md R144). -/
def decUpdate (cur : Word) : Update := resultZ (cur - 1)

/-- `cur[i]` as a 16-bit value. -/
def bitWord (cur : Word) (i : Nat) : Word := (BitVec.ofBool (cur.getLsbD i)).setWidth 16

/-- `shl`: left by one, `C` gets bit 15 (43_shift_rotate.md R160). -/
def shlUpdate (cur : Word) : Update := resultCZ (cur <<< 1) (cur.getLsbD 15)

/-- `shr`: logical right by one, `C` gets bit 0 (43_shift_rotate.md R161). -/
def shrUpdate (cur : Word) : Update := resultCZ (cur >>> 1) (cur.getLsbD 0)

/-- `rtl`: left by one, bit 15 into bit 0 and into `C`; the old `C` is not used (43_shift_rotate.md R162,
90_conflicts.md C1). -/
def rtlUpdate (cur : Word) : Update := resultCZ ((cur <<< 1) ||| bitWord cur 15) (cur.getLsbD 15)

/-- `rtr`: right by one, bit 0 into bit 15 and into `C`; the old `C` is not used (43_shift_rotate.md R163,
90_conflicts.md C2). -/
def rtrUpdate (cur : Word) : Update :=
  resultCZ ((cur >>> 1) ||| (bitWord cur 0 <<< 15)) (cur.getLsbD 0)

end Sys2Proof.Machine
end

