-- ==== Sys2Proof/Machine/ControlStack.lean ====
section
/-! DEFINITION. Calls, stack and jumps: call, ret, reti, push, pop, jmp, jz, jnz, jc, jnc
(44_control_stack.md). -/

namespace Sys2Proof.Machine

/-- `call s`: resolve the target, push the address after the whole instruction, jump
(44_control_stack.md R180, R181). -/
def execCall (src : Operand) (s : State) : Host.Outcome State Fault Refusal :=
  .next (((s.advance (lengthS src)).push (s.advance (lengthS src)).pc).jump (s.source src))

/-- `ret`: `pc` gets the word at `r7`, then `r7` is incremented (44_control_stack.md R182). -/
def execRet (s : State) : Host.Outcome State Fault Refusal :=
  .next ((s.jump s.top).dropTop)

/-- `reti`: no effect beyond the advance of `pc` (44_control_stack.md R184). -/
def execReti (s : State) : Host.Outcome State Fault Refusal :=
  .next (s.advance 1)

/-- `push s`: resolve the source, then push it (44_control_stack.md R186). -/
def execPush (src : Operand) (s : State) : Host.Outcome State Fault Refusal :=
  .next ((s.push (s.source src)).advance (lengthS src))

/-- `pop`, order `A`: the word at `SP` goes to the destination, then `SP` is incremented
(44_control_stack.md R188, R193). -/
def State.popThenIncrement (s : State) (dst : Operand) : State :=
  (s.applyDest dst (copyUpdate s.top)).dropTop

/-- `pop`, order `B`: the location is fixed, then the word is read and `SP` incremented, then the location
written; nothing for mode 0 (44_control_stack.md R193). -/
def State.popWithinUpdate (s : State) (dst : Operand) : State :=
  match s.destLocation dst with
  | none => s
  | some loc => s.dropTop.writeLoc loc s.top

/-- `pop`, order `C`: the word is read, `SP` incremented, and then the destination found and written
(44_control_stack.md R193). -/
def State.incrementThenPop (s : State) (dst : Operand) : State :=
  s.dropTop.applyDest dst (copyUpdate s.top)

/-- `pop` in the order that a variant names (44_control_stack.md R193). -/
def State.popInOrder (s : State) (v : PopVariant) (dst : Operand) : State :=
  match v with
  | .variantA => s.popThenIncrement dst
  | .variantB => s.popWithinUpdate dst
  | .variantC => s.incrementThenPop dst

/-- The three destinations whose result depends on `POP_VARIANT`: `r7`, `[r7]` and mode 0
(44_control_stack.md R188, R193). -/
def popOrderMatters : Operand → Bool
  | .imm _ => true
  | .reg r => r == spReg
  | .abs _ => false
  | .ind r => r == spReg

/-- What `pop` does to the state, but for `pc` (44_control_stack.md R188). -/
def State.popInto (s : State) (dst : Operand) : State :=
  if popOrderMatters dst = true then s.popInOrder s.popOrder dst else s.popThenIncrement dst

/-- `pop d`: the word at `r7` to the destination, and `r7` incremented; no flag
(44_control_stack.md R188). -/
def execPop (dst : Operand) (s : State) : Host.Outcome State Fault Refusal :=
  s.checkDest dst ((s.popInto dst).advance (lengthD dst))

/-- `jmp s` (44_control_stack.md R195). -/
def execJmp (src : Operand) (s : State) : Host.Outcome State Fault Refusal :=
  .next (s.jump (s.source src))

/-- A conditional jump: the operand is resolved and its word consumed whether or not the jump is taken
(44_control_stack.md R196). -/
def State.jumpIf (s : State) (cond : Bool) (src : Operand) : Host.Outcome State Fault Refusal :=
  .next (if cond = true then s.jump (s.source src) else s.advance (lengthS src))

/-- `jz s`: jump if the zero flag is set (44_control_stack.md R197). -/
def execJz (src : Operand) (s : State) : Host.Outcome State Fault Refusal :=
  s.jumpIf s.z src

/-- `jnz s`: jump if the zero flag is clear (44_control_stack.md R198). -/
def execJnz (src : Operand) (s : State) : Host.Outcome State Fault Refusal :=
  s.jumpIf (!s.z) src

/-- `jc s`: jump if the carry flag is set (44_control_stack.md R199). -/
def execJc (src : Operand) (s : State) : Host.Outcome State Fault Refusal :=
  s.jumpIf s.c src

/-- `jnc s`: jump if the carry flag is clear (44_control_stack.md R200). -/
def execJnc (src : Operand) (s : State) : Host.Outcome State Fault Refusal :=
  s.jumpIf (!s.c) src

end Sys2Proof.Machine
end

