-- ==== Sys2Proof/Machine/FlagsHalt.lean ====
section
/-! DEFINITION. Flag instructions, halt and the unrecognised opcodes (45_flags_halt.md). All are one word
long. -/

namespace Sys2Proof.Machine

/-- `stc` (45_flags_halt.md R210). -/
def execStc (s : State) : Host.Outcome State Fault Refusal :=
  .next ((s.setC true).advance 1)

/-- `clc` (45_flags_halt.md R211). -/
def execClc (s : State) : Host.Outcome State Fault Refusal :=
  .next ((s.setC false).advance 1)

/-- `ei` (45_flags_halt.md R212). -/
def execEi (s : State) : Host.Outcome State Fault Refusal :=
  .next ((s.setIe true).advance 1)

/-- `di` (45_flags_halt.md R213). -/
def execDi (s : State) : Host.Outcome State Fault Refusal :=
  .next ((s.setIe false).advance 1)

/-- `halt`: no state changes but `pc`, which is past the word; all state survives and a further step runs
the next word (45_flags_halt.md R214, 10_state.md R35). That the step returns `halted` is
`instrStatus`. -/
def execHalt (s : State) : Host.Outcome State Fault Refusal :=
  .next (s.advance 1)

/-- Opcode 0, unrecognised: no operation, one word long (45_flags_halt.md R215). -/
def execUnrecognised0 (s : State) : Host.Outcome State Fault Refusal :=
  .next (s.advance 1)

/-- Opcode 29, unrecognised: no operation, one word long (45_flags_halt.md R215). -/
def execUnrecognised29 (s : State) : Host.Outcome State Fault Refusal :=
  .next (s.advance 1)

/-- Opcode 30, unrecognised: no operation, one word long (45_flags_halt.md R215). -/
def execUnrecognised30 (s : State) : Host.Outcome State Fault Refusal :=
  .next (s.advance 1)

/-- Opcode 31, unrecognised: no operation, one word long (45_flags_halt.md R215). -/
def execUnrecognised31 (s : State) : Host.Outcome State Fault Refusal :=
  .next (s.advance 1)

/-- The status a step that executes the instruction returns: `halted` exactly for opcode 28
(40_operands.md R100, 10_state.md R34). -/
def instrStatus (i : Instr) : Status := if i = .halt then .halted else .continuing

end Sys2Proof.Machine
end

