-- ==== Sys2Proof/Machine/LogicIncDec.lean ====
section
/-! DEFINITION. Logic, increment and decrement: and, or, xor, inc, dec (42_logic_incdec.md). -/

namespace Sys2Proof.Machine

/-- `and d, s`: bitwise and (42_logic_incdec.md R140). -/
def execAnd (src dst : Operand) (s : State) : Host.Outcome State Fault Refusal :=
  s.applySD andUpdate src dst

/-- `or d, s`: bitwise inclusive or (42_logic_incdec.md R141). -/
def execOr (src dst : Operand) (s : State) : Host.Outcome State Fault Refusal :=
  s.applySD orUpdate src dst

/-- `xor d, s`: bitwise exclusive or (42_logic_incdec.md R142). -/
def execXor (src dst : Operand) (s : State) : Host.Outcome State Fault Refusal :=
  s.applySD xorUpdate src dst

/-- `inc d`: add one (42_logic_incdec.md R143). -/
def execInc (dst : Operand) (s : State) : Host.Outcome State Fault Refusal :=
  s.applyD incUpdate dst

/-- `dec d`: subtract one (42_logic_incdec.md R144). -/
def execDec (dst : Operand) (s : State) : Host.Outcome State Fault Refusal :=
  s.applyD decUpdate dst

end Sys2Proof.Machine
end

