-- ==== Sys2Proof/Machine/MoveArith.lean ====
section
/-! DEFINITION. Move and arithmetic: copy, add, sub, cmp (41_move_arith.md). A meaning runs the whole
instruction: it starts with `pc` at the instruction word and leaves `pc` where the next one is. -/

namespace Sys2Proof.Machine

/-- `copy d, s`: the source to the destination, no flag (41_move_arith.md R120). -/
def execCopy (src dst : Operand) (s : State) : Host.Outcome State Fault Refusal :=
  s.applySD copyUpdate src dst

/-- `add d, s`: add with the carry at the start of the instruction (41_move_arith.md R121). -/
def execAdd (src dst : Operand) (s : State) : Host.Outcome State Fault Refusal :=
  s.applySD (addUpdate s.c) src dst

/-- `sub d, s`: subtract with the borrow at the start of the instruction (41_move_arith.md R122). -/
def execSub (src dst : Operand) (s : State) : Host.Outcome State Fault Refusal :=
  s.applySD (subUpdate s.c) src dst

/-- `cmp d, s`: compare the source operand with the destination operand read as a source, and write only
the flags (41_move_arith.md R123). -/
def execCmp (src dst : Operand) (s : State) : Host.Outcome State Fault Refusal :=
  .next (((s.setZ (cmpZ (s.source src) (s.source dst))).setC
    (cmpC (s.source src) (s.source dst))).advance (lengthSS src dst))

end Sys2Proof.Machine
end

