-- ==== Sys2Proof/Machine/ShiftRotate.lean ====
section
/-! DEFINITION. Shifts and rotates by one: shl, shr, rtl, rtr (43_shift_rotate.md). -/

namespace Sys2Proof.Machine

/-- `shl d`: logical shift left (43_shift_rotate.md R160). -/
def execShl (dst : Operand) (s : State) : Host.Outcome State Fault Refusal :=
  s.applyD shlUpdate dst

/-- `shr d`: logical shift right (43_shift_rotate.md R161). -/
def execShr (dst : Operand) (s : State) : Host.Outcome State Fault Refusal :=
  s.applyD shrUpdate dst

/-- `rtl d`: rotate left (43_shift_rotate.md R162). -/
def execRtl (dst : Operand) (s : State) : Host.Outcome State Fault Refusal :=
  s.applyD rtlUpdate dst

/-- `rtr d`: rotate right (43_shift_rotate.md R163). -/
def execRtr (dst : Operand) (s : State) : Host.Outcome State Fault Refusal :=
  s.applyD rtrUpdate dst

end Sys2Proof.Machine
end

