-- ==== Sys2Proof/Machine/Dispatch.lean ====
section
/-! DEFINITION. The meaning of each instruction, one arm per row of spec/opcode_table.json. -/

namespace Sys2Proof.Machine

/-- `Execute`, run from the state whose `pc` is the instruction's address (40_operands.md R100). -/
def exec (i : Instr) (s : State) : Host.Outcome State Fault Refusal :=
  match i with
  | .unrecognised0 => Sys2Proof.Machine.execUnrecognised0 s
  | .copy src dst => Sys2Proof.Machine.execCopy src dst s
  | .add src dst => Sys2Proof.Machine.execAdd src dst s
  | .sub src dst => Sys2Proof.Machine.execSub src dst s
  | .cmp src dst => Sys2Proof.Machine.execCmp src dst s
  | .and src dst => Sys2Proof.Machine.execAnd src dst s
  | .or src dst => Sys2Proof.Machine.execOr src dst s
  | .xor src dst => Sys2Proof.Machine.execXor src dst s
  | .inc dst => Sys2Proof.Machine.execInc dst s
  | .dec dst => Sys2Proof.Machine.execDec dst s
  | .shl dst => Sys2Proof.Machine.execShl dst s
  | .shr dst => Sys2Proof.Machine.execShr dst s
  | .rtl dst => Sys2Proof.Machine.execRtl dst s
  | .rtr dst => Sys2Proof.Machine.execRtr dst s
  | .call src => Sys2Proof.Machine.execCall src s
  | .ret => Sys2Proof.Machine.execRet s
  | .reti => Sys2Proof.Machine.execReti s
  | .push src => Sys2Proof.Machine.execPush src s
  | .pop dst => Sys2Proof.Machine.execPop dst s
  | .jmp src => Sys2Proof.Machine.execJmp src s
  | .jz src => Sys2Proof.Machine.execJz src s
  | .jnz src => Sys2Proof.Machine.execJnz src s
  | .jc src => Sys2Proof.Machine.execJc src s
  | .jnc src => Sys2Proof.Machine.execJnc src s
  | .stc => Sys2Proof.Machine.execStc s
  | .clc => Sys2Proof.Machine.execClc s
  | .ei => Sys2Proof.Machine.execEi s
  | .di => Sys2Proof.Machine.execDi s
  | .halt => Sys2Proof.Machine.execHalt s
  | .unrecognised29 => Sys2Proof.Machine.execUnrecognised29 s
  | .unrecognised30 => Sys2Proof.Machine.execUnrecognised30 s
  | .unrecognised31 => Sys2Proof.Machine.execUnrecognised31 s

end Sys2Proof.Machine
end

