-- ==== Sys2Proof/Machine/Fetch.lean ====
section
/-! DEFINITION. Fetching an instruction from memory (40_operands.md R100, R101). The words of an
instruction are all fetched before it writes anything and no read has an effect (R109, 20_memory.md R58),
so the machine reads the instruction word and the two words after it, and the decoder takes those it
needs. -/

namespace Sys2Proof.Machine

/-- The instruction at `pc`; word addresses wrap modulo 2^16 (10_state.md R25). -/
def State.fetch (s : State) : Instr :=
  decode (s.readWord s.pc) (s.readWord (s.pc + 1)) (s.readWord (s.pc + 2))

/-- The status that `STEP` returns from a state, where it does not fault (40_operands.md R100). -/
def stepStatus (s : State) : Status := instrStatus s.fetch

/-- The state with the words `ws` stored at `pc` and after it, as the host's WORD_WRITEs store them. -/
def State.placeAtPc (s : State) (ws : List Word) : State :=
  { s with mem := s.mem.writeWords s.pc ws }

end Sys2Proof.Machine
end

