-- ==== Sys2Proof/Machine/Step.lean ====
section
/-! DEFINITION. One step: fetch the instruction at `pc` and execute it (40_operands.md R100). -/

namespace Sys2Proof.Machine

/-- `STEP`, but for the status it returns, which is `stepStatus` (40_operands.md R100). Each meaning runs
the whole instruction, the advance of `pc` past its words included. -/
def step (s : State) : Host.Outcome State Fault Refusal := exec s.fetch s

/-- The state with an instruction, its bits numbered as spec/opcode_table.json numbers them, stored where
the next step fetches it. -/
def State.withFetchWord (s : State) (nbits w : Nat) : State := s.placeAtPc (tableWords nbits w)

end Sys2Proof.Machine
end

