-- ==== Sys2Proof/Machine/Pseudocode.lean ====
section
/-! DEFINITION. The spec's own pseudocode of a step, word by word: every extension word is fetched at `pc`
when operand resolution reaches it (40_operands.md R100 to R109), where the machine decodes the whole
instruction first. No instruction's meaning is defined here: the functions from old value to new value are
those of Flags.lean. A statement says that the machine's step is this one. -/

namespace Sys2Proof.Machine.Pseudocode

/-- `FetchWord()` (40_operands.md R101). -/
def fetchWord (s : State) : Word × State := (s.readWord s.pc, s.jump (s.pc + 1))

/-- `ResolveSource(m, r)` (40_operands.md R102). -/
def resolveSource (m : BitVec 2) (r : RegNo) (s : State) : Word × State :=
  match m.toNat with
  | 0 => fetchWord s
  | 1 => (s.reg r, s)
  | 2 => ((fetchWord s).2.readWord (fetchWord s).1, (fetchWord s).2)
  | _ => (s.readWord (s.reg r), s)

/-- `DestLocation(m, r)` (40_operands.md R103). -/
def destLocation (m : BitVec 2) (r : RegNo) (s : State) : Option Location × State :=
  match m.toNat with
  | 0 => (none, s)
  | 1 => (some (.reg r), s)
  | 2 => (some (.mem (fetchWord s).1), (fetchWord s).2)
  | _ => (some (.mem (s.reg r)), s)

/-- `ApplyDest(m, r, f)`, where `after` is what the opcode's rule does next (40_operands.md R104 to R106).
`ia` and `w` are the instruction's address and word. -/
def applyDest (ia w : Word) (m : BitVec 2) (r : RegNo) (f : Word → Update) (after : State → State)
    (s : State) : Host.Outcome State Fault Refusal :=
  match destLocation m r s with
  | (none, s1) =>
    if s1.strict = true then .fault (.invalidDestinationMode ia w) else .next (after s1)
  | (some loc, s1) =>
    .next (after ((s1.writeLoc loc (f (s1.readLoc loc)).value).writeFlags (f (s1.readLoc loc))))

/-- `pop` under variant `B`: `f` is read, increment, return, run inside `ApplyDest` after the location is
fixed (44_control_stack.md R193). -/
def popB (ia w : Word) (m : BitVec 2) (r : RegNo) (s : State) : Host.Outcome State Fault Refusal :=
  match destLocation m r s with
  | (none, s1) => if s1.strict = true then .fault (.invalidDestinationMode ia w) else .next s1
  | (some loc, s1) => .next (s1.dropTop.writeLoc loc s1.top)

/-- `pop`, all three variants, for every destination (44_control_stack.md R188, R193). -/
def pop (ia w : Word) (m : BitVec 2) (r : RegNo) (s : State) : Host.Outcome State Fault Refusal :=
  match s.popOrder with
  | .variantA => applyDest ia w m r (copyUpdate s.top) State.dropTop s
  | .variantB => popB ia w m r s
  | .variantC => applyDest ia w m r (copyUpdate s.top) id s.dropTop

/-- An `SD` opcode: the source, then the destination (40_operands.md R109). -/
def opSD (f : Word → Word → Update) (ia w : Word) (s : State) : Host.Outcome State Fault Refusal :=
  applyDest ia w (dstMode w) (dstReg w) (f (resolveSource (srcMode w) (srcReg w) s).1) id
    (resolveSource (srcMode w) (srcReg w) s).2

/-- A `D` opcode. -/
def opD (f : Word → Update) (ia w : Word) (s : State) : Host.Outcome State Fault Refusal :=
  applyDest ia w (dstMode w) (dstReg w) f id s

/-- An `S` opcode: `act` takes the operand's value and the state after it was resolved. -/
def opS (act : Word → State → State) (w : Word) (s : State) : Host.Outcome State Fault Refusal :=
  .next (act (resolveSource (srcMode w) (srcReg w) s).1 (resolveSource (srcMode w) (srcReg w) s).2)

/-- `cmp`, both operands resolved as sources (41_move_arith.md R123). -/
def opCmp (w : Word) (s : State) : Host.Outcome State Fault Refusal :=
  let a := resolveSource (srcMode w) (srcReg w) s
  let b := resolveSource (dstMode w) (dstReg w) a.2
  .next ((b.2.setZ (cmpZ a.1 b.1)).setC (cmpC a.1 b.1))

/-- `Execute`, by opcode, from the state after the instruction word was fetched (40_operands.md R100,
30_encoding.md R76). -/
def execute (op : Nat) (ia w : Word) (s : State) : Host.Outcome State Fault Refusal :=
  match op with
  | 1 => opSD copyUpdate ia w s
  | 2 => opSD (addUpdate s.c) ia w s
  | 3 => opSD (subUpdate s.c) ia w s
  | 4 => opCmp w s
  | 5 => opSD andUpdate ia w s
  | 6 => opSD orUpdate ia w s
  | 7 => opSD xorUpdate ia w s
  | 8 => opD incUpdate ia w s
  | 9 => opD decUpdate ia w s
  | 10 => opD shlUpdate ia w s
  | 11 => opD shrUpdate ia w s
  | 12 => opD rtlUpdate ia w s
  | 13 => opD rtrUpdate ia w s
  | 14 => opS (fun t s1 => (s1.push s1.pc).jump t) w s
  | 15 => .next ((s.jump s.top).dropTop)
  | 17 => opS (fun v s1 => s1.push v) w s
  | 18 => pop ia w (dstMode w) (dstReg w) s
  | 19 => opS (fun t s1 => s1.jump t) w s
  | 20 => opS (fun t s1 => if s1.z = true then s1.jump t else s1) w s
  | 21 => opS (fun t s1 => if s1.z = false then s1.jump t else s1) w s
  | 22 => opS (fun t s1 => if s1.c = true then s1.jump t else s1) w s
  | 23 => opS (fun t s1 => if s1.c = false then s1.jump t else s1) w s
  | 24 => .next (s.setC true)
  | 25 => .next (s.setC false)
  | 26 => .next (s.setIe true)
  | 27 => .next (s.setIe false)
  | _ => .next s

/-- `STEP()`, but for the status it returns (40_operands.md R100). -/
def step (s : State) : Host.Outcome State Fault Refusal :=
  execute (opcodeField (fetchWord s).1).toNat s.pc (fetchWord s).1 (fetchWord s).2

end Sys2Proof.Machine.Pseudocode
end

