-- ==== Sys2Proof/Machine/Transactions.lean ====
section
/-! DEFINITION. The transactions the block offers the host (10_state.md R32), each indivisible and between
steps (R33). None writes a register, `pc` or a flag, and none reads `IE`. -/

namespace Sys2Proof.Machine

/-- A transaction of 10_state.md R32. -/
inductive Transaction where
  /-- Executes one instruction. -/
  | step
  /-- Repeats `step` until it returns `halted`; `fuel` bounds the steps (93_implementation_defined.md U8). -/
  | run (fuel : Nat)
  | wordRead (a : Word)
  | wordWrite (a v : Word)
  | byteRead (b : ByteAddr)
  | byteWrite (b : ByteAddr) (v : Byte)
  | dbgReg (r : RegNo)
  | dbgPc
  | dbgC
  | dbgZ
  | dbgRange (a : Word) (n : Nat)
  | reset (initByte : Byte) (fragmentSize : Nat)
  deriving DecidableEq, Repr

/-- What a transaction gives the host. -/
inductive Response where
  | none
  | status (st : Status)
  /-- `run` used up its fuel before a step returned `halted`. -/
  | outOfFuel
  | word (v : Word)
  | byte (v : Byte)
  | flag (b : Bool)
  | words (ws : List Word)
  deriving DecidableEq, Repr

/-- A transaction's outcome: the state after it and the response, a fault, or a refusal. -/
abbrev Reply := Host.Outcome (State × Response) Fault Refusal

/-- `STEP`: one step, with the status it returns (40_operands.md R100). -/
def stepReply (s : State) : Reply :=
  match step s with
  | .next t => .next (t, .status (stepStatus s))
  | .fault f => .fault f
  | .refused r => .refused r

/-- `RUN` with at most `fuel` steps: steps until one returns `halted` (10_state.md R34, R35). -/
def runReply : Nat → State → Reply
  | 0, s => .next (s, .outOfFuel)
  | fuel + 1, s =>
    match step s with
    | .next t => if stepStatus s = .halted then .next (t, .status .halted) else runReply fuel t
    | .fault f => .fault f
    | .refused r => .refused r

/-- The base-2 logarithm of a legal `FRAGMENT_SIZE`, a power of two from 1 to 2^17 (00_scope.md R10). -/
def legalFragLog (size : Nat) : Option (Fin 18) :=
  (List.finRange 18).find? fun k => 2 ^ k.val == size

/-- `RESET`: construction of the block with the two inputs of 70_reset_and_hazards.md R250; the other two
parameters are the machine's. An illegal `FRAGMENT_SIZE` is refused (93_implementation_defined.md U11). -/
def resetReply (initByte : Byte) (fragmentSize : Nat) (s : State) : Reply :=
  match legalFragLog fragmentSize with
  | some k => .next (State.construct initByte k s.strictDstMode0 s.popVariant, .none)
  | none => .refused (.illegalFragmentSize fragmentSize)

/-- `DBG_RANGE(a, n)` for `n` from 1 to 65536, wrapping modulo 2^16 (10_state.md R32). -/
def rangeReply (a : Word) (n : Nat) (s : State) : Reply :=
  if 1 ≤ n ∧ n ≤ 65536 then .next (s, .words (s.mem.readWords a n))
  else .refused (.illegalRangeCount n)

/-- One transaction of the host's (10_state.md R32). -/
def transact (x : Transaction) (s : State) : Reply :=
  match x with
  | .step => stepReply s
  | .run fuel => runReply fuel s
  | .wordRead a => .next (s, .word (s.mem.readWord a))
  | .wordWrite a v => .next ({ s with mem := s.mem.writeWord a v }, .none)
  | .byteRead b => .next (s, .byte (s.mem.byteRead b))
  | .byteWrite b v => .next ({ s with mem := s.mem.byteWrite b v }, .none)
  | .dbgReg r => .next (s, .word (s.reg r))
  | .dbgPc => .next (s, .word s.pc)
  | .dbgC => .next (s, .flag s.c)
  | .dbgZ => .next (s, .flag s.z)
  | .dbgRange a n => rangeReply a n s
  | .reset initByte fragmentSize => resetReply initByte fragmentSize s

end Sys2Proof.Machine
end

