-- ==== Sys2Proof/Safety.lean ====
section
/-! DEFINITION. The terms the statements use: what a step leaves unchanged, how an instruction with a
destination completes, how words decode, and which states the memory's observers cannot tell apart. -/

namespace Sys2Proof.Machine

/-! ### What is left unchanged -/

/-- Every general register outside `rs` holds what it held. -/
def RegsKept (rs : List RegNo) (s t : State) : Prop := ∀ r, r ∉ rs → t.reg r = s.reg r

/-- Every byte outside the words at `ws` reads as it did. -/
def BytesKept (ws : List Word) (s t : State) : Prop :=
  ∀ b : ByteAddr, (∀ a ∈ ws, b ≠ highByteAddr a ∧ b ≠ lowByteAddr a) →
    t.mem.byteRead b = s.mem.byteRead b

/-- `C` and `Z` hold what they held. -/
def FlagsKept (s t : State) : Prop := t.c = s.c ∧ t.z = s.z

/-- The four parameters of 00_scope.md R10 are what they were. -/
def ParamsKept (s t : State) : Prop :=
  t.strictDstMode0 = s.strictDstMode0 ∧ t.popVariant = s.popVariant ∧
  t.mem.initByte = s.mem.initByte ∧ t.mem.fragLog = s.mem.fragLog

/-- The frame of an instruction that may write the registers `rs` and the words at `ws`: every other
register, every other byte, `IE` and the parameters are unchanged, and with no word written the fragments
are too. `C`, `Z` and `pc` are not spoken of. -/
def Frame (rs : List RegNo) (ws : List Word) (s t : State) : Prop :=
  RegsKept rs s t ∧ BytesKept ws s t ∧ t.ie = s.ie ∧ ParamsKept s t ∧
  (ws = [] → t.mem.fragments = s.mem.fragments)

/-- The register a location is, if it is one. -/
def Location.regs : Location → List RegNo
  | .reg r => [r]
  | .mem _ => []

/-- The address of the word a location is, if it is one. -/
def Location.words : Location → List Word
  | .reg _ => []
  | .mem a => [a]

/-! ### Completion -/

/-- `exec i s` answers a next state that meets `P`. -/
def Completes (i : Instr) (s : State) (P : State → Prop) : Prop := ∃ t, exec i s = .next t ∧ P t

/-- How an instruction `i` of `n` words with destination `dst` runs from `s`. Where the destination names a
location, the step completes, `R cur new t` holds of the location's old and new value and the next state
`t`, `pc` is past the instruction, and nothing else than the location, `C` and `Z` changes. For mode 0, the
step faults in strict mode, with the word that memory holds at `pc` (log entry 6), and otherwise only `pc`
changes. -/
def RunsAtDestination (i : Instr) (dst : Operand) (n : Nat) (s : State)
    (R : Word → Word → State → Prop) : Prop :=
  match s.destLocation dst with
  | some loc => Completes i s fun t =>
      R (s.readLoc loc) (t.readLoc loc) t ∧ t.pc = s.pc + BitVec.ofNat 16 n ∧
      Frame loc.regs loc.words s t
  | none =>
      if s.strictDstMode0 = true then
        exec i s = .fault (.invalidDestinationMode s.pc (s.mem.readWord s.pc))
      else Completes i s fun t =>
        t.pc = s.pc + BitVec.ofNat 16 n ∧ FlagsKept s t ∧ Frame [] [] s t

/-! ### Decoding, by operand class (30_encoding.md R75) -/

/-- Opcode `k` is the class `SD` instruction `mk`. -/
def DecodesSD (k : Nat) (mk : Operand → Operand → Instr) : Prop :=
  ∀ w e1 e2 : Word, (opcodeField w).toNat = k →
    decode w e1 e2 = mk (sourceOf w e1) (destAfterSource w e1 e2)

/-- Opcode `k` is the class `SS` instruction `mk`. -/
def DecodesSS (k : Nat) (mk : Operand → Operand → Instr) : Prop :=
  ∀ w e1 e2 : Word, (opcodeField w).toNat = k →
    decode w e1 e2 = mk (sourceOf w e1) (secondSource w e1 e2)

/-- Opcode `k` is the class `D` instruction `mk`. -/
def DecodesD (k : Nat) (mk : Operand → Instr) : Prop :=
  ∀ w e1 e2 : Word, (opcodeField w).toNat = k → decode w e1 e2 = mk (destOf w e1)

/-- Opcode `k` is the class `S` instruction `mk`. -/
def DecodesS (k : Nat) (mk : Operand → Instr) : Prop :=
  ∀ w e1 e2 : Word, (opcodeField w).toNat = k → decode w e1 e2 = mk (sourceOf w e1)

/-- Opcode `k` is the class `N` instruction `i`. -/
def DecodesN (k : Nat) (i : Instr) : Prop :=
  ∀ w e1 e2 : Word, (opcodeField w).toNat = k → decode w e1 e2 = i

/-- The opcodes of class `SD` (30_encoding.md R75). -/
def opcodesSD : List Nat := [1, 2, 3, 5, 6, 7]

/-- The opcodes of class `D` (30_encoding.md R75). -/
def opcodesD : List Nat := [8, 9, 10, 11, 12, 13, 18]

/-- The opcodes of class `S` (30_encoding.md R75). -/
def opcodesS : List Nat := [14, 17, 19, 20, 21, 22, 23]

/-- The opcodes of class `N` (30_encoding.md R75). -/
def opcodesN : List Nat := [0, 15, 16, 24, 25, 26, 27, 28, 29, 30, 31]

/-- The class of opcode `k` decodes the source fields (30_encoding.md R75). -/
def decodesSource (k : Nat) : Prop := k ∈ opcodesSD ∨ k = 4 ∨ k ∈ opcodesS

/-- The class of opcode `k` decodes the destination fields, for `cmp` as a source (30_encoding.md R75). -/
def decodesDest (k : Nat) : Prop := k ∈ opcodesSD ∨ k = 4 ∨ k ∈ opcodesD

/-- The length of an instruction in words, from its instruction word alone (30_encoding.md R77). -/
def lengthOfWord (w : Word) : Nat :=
  let op := (opcodeField w).toNat
  if op ∈ opcodesSD then 1 + sourceExt (srcMode w) + destExt (dstMode w)
  else if op = 4 then 1 + sourceExt (srcMode w) + sourceExt (dstMode w)
  else if op ∈ opcodesD then 1 + destExt (dstMode w)
  else if op ∈ opcodesS then 1 + sourceExt (srcMode w)
  else 1

/-- The opcode of the word at `pc`. -/
def State.opcodeAtPc (s : State) : Nat := (opcodeField (s.mem.readWord s.pc)).toNat

/-- `k` steps from `s` complete and reach `t`, and none of them executes opcode 28. -/
def ReachesWithoutHalt (k : Nat) (s t : State) : Prop :=
  Host.Core.run core k s = .next t ∧
  ∀ (j : Nat) (u : State), j < k → Host.Core.run core j s = .next u → u.opcodeAtPc ≠ 28

/-! ### What no observer can tell apart -/

/-- The same outcome, with next states related by `R` and stops equal. -/
def OutcomeRel (R : State → State → Prop) :
    Host.Outcome State Fault Refusal → Host.Outcome State Fault Refusal → Prop
  | .next s, .next t => R s t
  | .fault f, .fault g => f = g
  | .refused q, .refused r => q = r
  | _, _ => False

/-- The same registers, `pc`, flags, implementation parameters and value of every byte; the fragments, the
fragment size and the listed cells may differ (20_memory.md R47). -/
def SameButFragments (s t : State) : Prop :=
  (∀ r, t.reg r = s.reg r) ∧ t.pc = s.pc ∧ t.c = s.c ∧ t.z = s.z ∧ t.ie = s.ie ∧
  t.strictDstMode0 = s.strictDstMode0 ∧ t.popVariant = s.popVariant ∧
  ∀ b : ByteAddr, t.mem.byteRead b = s.mem.byteRead b

/-- The same state but for `IE` (10_state.md R28). -/
def SameButIe (s t : State) : Prop := t = s.setIe t.ie

/-- The same reply, with equal responses, next states related by `R` and stops equal. -/
def ReplyRel (R : State → State → Prop) : Reply → Reply → Prop
  | .next (s, p), .next (t, q) => R s t ∧ p = q
  | .fault f, .fault g => f = g
  | .refused q, .refused r => q = r
  | _, _ => False

end Sys2Proof.Machine
end

