-- ==== Sys2Proof/WellFormed.lean ====
section
/-! DEFINITION. Which terms of `Instr` an instruction word and its extension words can hold. The types
bound every register number and word; the one thing left to check is that a destination of mode 0, which
consumes no extension word (30_encoding.md R81), carries none. -/

namespace Sys2Proof

/-- Can stand as a destination of an `SD` or `D` opcode: a mode 0 destination has no extension word to
hold a value (30_encoding.md R77, R81). -/
def Operand.wellFormedDest : Operand → Bool
  | .imm n => n == 0
  | .reg _ => true
  | .abs _ => true
  | .ind _ => true

/-- The instruction has an encoding. Sources, and both operands of `cmp`, take every value. -/
def Instr.wellFormed : Instr → Bool
  | .unrecognised0 => true
  | .copy _ dst => dst.wellFormedDest
  | .add _ dst => dst.wellFormedDest
  | .sub _ dst => dst.wellFormedDest
  | .cmp _ _ => true
  | .and _ dst => dst.wellFormedDest
  | .or _ dst => dst.wellFormedDest
  | .xor _ dst => dst.wellFormedDest
  | .inc dst => dst.wellFormedDest
  | .dec dst => dst.wellFormedDest
  | .shl dst => dst.wellFormedDest
  | .shr dst => dst.wellFormedDest
  | .rtl dst => dst.wellFormedDest
  | .rtr dst => dst.wellFormedDest
  | .call _ => true
  | .ret => true
  | .reti => true
  | .push _ => true
  | .pop dst => dst.wellFormedDest
  | .jmp _ => true
  | .jz _ => true
  | .jnz _ => true
  | .jc _ => true
  | .jnc _ => true
  | .stc => true
  | .clc => true
  | .ei => true
  | .di => true
  | .halt => true
  | .unrecognised29 => true
  | .unrecognised30 => true
  | .unrecognised31 => true

end Sys2Proof
end

