-- ==== Sys2Proof/Certificates/Slice0/Obligations.lean ====
section
/-! DEFINITION. The statements for the provers, from the numbered rules of spec/. Every statement about a
state holds of every value of the four parameters of 00_scope.md R10, `POP_VARIANT` among them. -/

open Sys2Proof Sys2Proof.Machine

/-! ### Encoding -/

/-- Words of 95_test_vectors.md, one or more of each family, decode to the instructions the file names
beside them (V3, V4, V7, V9, V22, V25, V55, V65, V86, V103, V111, V120, V141). -/
def Obligations.VectorWordsDecode : Prop :=
  decode 0x0810 0x0005 0x0200 = .add (.imm 0x0005) (.abs 0x0200) ∧
  decode 0x1000 0x0005 0x0004 = .cmp (.imm 0x0005) (.imm 0x0004) ∧
  decode 0x7FFF 0x1111 0x2222 = .unrecognised31 ∧
  decode 0xA009 0 0 = .inc (.reg 1) ∧
  decode 0x0608 0x0200 0 = .copy (.abs 0x0200) (.reg 0) ∧
  decode 0x053A 0 0 = .copy (.reg 1) (.ind 2) ∧
  decode 0x1370 0x0200 0 = .cmp (.ind 3) (.abs 0x0200) ∧
  decode 0x1C10 0xFFFF 0x0200 = .xor (.imm 0xFFFF) (.abs 0x0200) ∧
  decode 0x3008 0 0 = .rtl (.reg 0) ∧
  decode 0x3BE0 0 0 = .call (.ind 7) ∧
  decode 0x4810 0x0200 0 = .pop (.abs 0x0200) ∧
  decode 0x5000 0x0200 0 = .jz (.imm 0x0200) ∧
  decode 0x6400 0 0 = .clc

/-- 30_encoding.md R70, R74, R76: the bytes of any well-formed instruction, followed by any bytes, decode
to that instruction and those bytes. The order of two extension words is the spec's decision D3, the
fields each opcode decodes its decision D4, and the zeros in ignored fields its decision D14. -/
def Obligations.DecodeBytesUndoesEncodeBytes : Prop :=
  ∀ (i : Instr) (rest : List Byte), i.wellFormed = true →
    decodeBytes (encodeBytes i ++ rest) = .ok (i, rest)

/-- 30_encoding.md R82: every word, with any words after it, decodes to an instruction with an encoding. -/
def Obligations.DecodeGivesWellFormedInstruction : Prop :=
  ∀ w e1 e2 : Word, (decode w e1 e2).wellFormed = true

/-- 30_encoding.md R71, the spec's decision D7: bit 15 changes neither the instruction a word decodes to
nor, then, what it does from any state. -/
def Obligations.ReservedBitChangesNothing : Prop :=
  ∀ (w e1 e2 : Word) (s : State),
    decode (w ^^^ 0x8000) e1 e2 = decode w e1 e2 ∧
    exec (decode (w ^^^ 0x8000) e1 e2) s = exec (decode w e1 e2) s

/-- 30_encoding.md R75 and R80, the spec's decision D4, and R72: what the opcode's class does not decode
changes nothing. Two words with one opcode, each followed by two words, decode alike if they agree in the
mode fields the class decodes, in each of its register fields whose mode uses it (1 or 3), and in the first
`lengthOfWord w - 1` words that follow. -/
def Obligations.UndecodedFieldsChangeNothing : Prop :=
  ∀ w v e1 e2 f1 f2 : Word, opcodeField w = opcodeField v →
    (decodesSource (opcodeField w).toNat → srcMode w = srcMode v) →
    (decodesSource (opcodeField w).toNat → srcMode w = 1 ∨ srcMode w = 3 → srcReg w = srcReg v) →
    (decodesDest (opcodeField w).toNat → dstMode w = dstMode v) →
    (decodesDest (opcodeField w).toNat → dstMode w = 1 ∨ dstMode w = 3 → dstReg w = dstReg v) →
    (2 ≤ lengthOfWord w → e1 = f1) → (3 ≤ lengthOfWord w → e2 = f2) →
    decode w e1 e2 = decode v f1 f2

/-- 30_encoding.md R76: the instruction a word decodes to is the one of its opcode field: encoded again,
it has that opcode. -/
def Obligations.OpcodeFieldSelectsTheInstruction : Prop :=
  ∀ w e1 e2 : Word, opcodeField ((encode (decode w e1 e2)).headD 0) = opcodeField w

/-- 30_encoding.md R77, an inference of the spec: the length of an instruction follows from its word alone,
by its class and its two modes. -/
def Obligations.LengthFollowsFromTheWord : Prop :=
  ∀ w e1 e2 : Word, (decode w e1 e2).length = lengthOfWord w

/-! ### The step -/

/-- 40_operands.md R100: a step executes the instruction at `pc`; nothing is added around `exec`, whose
meanings advance `pc` themselves. That the step decodes the instruction whole, from three words read ahead,
before it executes it is the model's reading of R109 with 20_memory.md R58 and R64 (log entry 5, DEDUCED). -/
def Obligations.StepExecutesTheDecodedInstruction : Prop :=
  ∀ (s : State) (i : Instr), i.wellFormed = true →
    decode (s.mem.readWord s.pc) (s.mem.readWord (s.pc + 1)) (s.mem.readWord (s.pc + 2)) = i →
    step s = exec i s

/-- 40_operands.md R100 and 10_state.md R25: where memory holds the words of a well-formed instruction from
`pc` on, modulo 2^16, a step executes it, whatever follows. That they are all read before it executes is
log entry 5 (DEDUCED). -/
def Obligations.StepRunsTheStoredInstruction : Prop :=
  ∀ (i : Instr) (s : State), i.wellFormed = true →
    (∀ (k : Nat) (h : k < (encode i).length),
      s.mem.readWord (s.pc + BitVec.ofNat 16 k) = (encode i)[k]) →
    step s = exec i s

/-- 20_memory.md R64, an inference of the spec: a store to the words at `pc` is seen by the next fetch. The
fetch of the whole instruction is log entry 5 (DEDUCED). -/
def Obligations.PlacedInstructionRunsNext : Prop :=
  ∀ (i : Instr) (s : State), i.wellFormed = true → s.mem.wf →
    step (s.placeAtPc (encode i)) = exec i (s.placeAtPc (encode i))

/-- 40_operands.md R100 to R109: the step, which decodes an instruction whole, is the spec's pseudocode,
which fetches each extension word when operand resolution reaches it (log entry 5 is what it confirms). The
pseudocode carries the spec's decisions D3, D4, D5, D6, D8, D10 and its OPEN parameter of D9. -/
def Obligations.StepIsTheSpecsPseudocode : Prop :=
  ∀ s : State, step s = Pseudocode.step s

/-- 60_exceptions.md R230: no instruction, operand, address or value makes a step trap. With the strict
mode off every step completes, and only the strict mode faults. That it is off in `State.reset`, the spec's
default, is log entry 2 (DEDUCED); that no step is refused speaks of the model's own third outcome. -/
def Obligations.NoStepTraps : Prop :=
  State.reset.strictDstMode0 = false ∧
  (∀ s : State, s.strictDstMode0 = false → ∃ t, step s = .next t) ∧
  (∀ (s : State) (q : Refusal), step s ≠ .refused q) ∧
  (∀ (s : State) (f : Fault), step s = .fault f → s.strictDstMode0 = true)

/-- 40_operands.md R106 and 60_exceptions.md R232, the spec's decision D8: a step faults exactly where the
strict mode is on and an `SD` or `D` opcode has destination mode 0, and the fault holds the instruction's
address and word. -/
def Obligations.StepFaultsExactlyAtStrictModeZero : Prop :=
  ∀ (s : State) (f : Fault), step s = .fault f ↔
    s.strictDstMode0 = true ∧ (s.opcodeAtPc ∈ opcodesSD ∨ s.opcodeAtPc ∈ opcodesD) ∧
    dstMode (s.mem.readWord s.pc) = 0 ∧
    f = .invalidDestinationMode s.pc (s.mem.readWord s.pc)

/-- 40_operands.md R102: the value of a source operand in each mode, and the extension words it consumes. -/
def Obligations.SourceOperandValues : Prop :=
  ∀ (w e : Word) (s : State),
    (srcMode w = 0 → s.source (sourceOf w e) = e ∧ (sourceOf w e).sourceWords = [e]) ∧
    (srcMode w = 1 → s.source (sourceOf w e) = s.reg (srcReg w) ∧ (sourceOf w e).sourceWords = []) ∧
    (srcMode w = 2 → s.source (sourceOf w e) = s.mem.readWord e ∧ (sourceOf w e).sourceWords = [e]) ∧
    (srcMode w = 3 → s.source (sourceOf w e) = s.mem.readWord (s.reg (srcReg w)) ∧
      (sourceOf w e).sourceWords = [])

/-- 40_operands.md R103: the location a destination operand names in each mode, and the extension words it
consumes. -/
def Obligations.DestinationOperandLocations : Prop :=
  ∀ (w e : Word) (s : State),
    (dstMode w = 0 → s.destLocation (destOf w e) = none ∧ (destOf w e).destWords = []) ∧
    (dstMode w = 1 → s.destLocation (destOf w e) = some (.reg (dstReg w)) ∧
      (destOf w e).destWords = []) ∧
    (dstMode w = 2 → s.destLocation (destOf w e) = some (.mem e) ∧ (destOf w e).destWords = [e]) ∧
    (dstMode w = 3 → s.destLocation (destOf w e) = some (.mem (s.reg (dstReg w))) ∧
      (destOf w e).destWords = [])

/-! ### Move, arithmetic, logic, shifts: what each instruction does to its destination

Each says, for every source and destination, what completes and how, with the frame. The clauses for
destination mode 0 (in `RunsAtDestination`) are the spec's decision D8; that the word in the strict fault is
the one memory holds at `pc` is log entry 6 (DEDUCED). -/

/-- 41_move_arith.md R120: `copy`. That it writes no flag is the spec's decision D10. -/
def Obligations.CopyMovesTheSource : Prop :=
  DecodesSD 1 .copy ∧
  ∀ (src dst : Operand) (s : State), s.mem.wf →
    RunsAtDestination (.copy src dst) dst (1 + src.sourceWords.length + dst.destWords.length) s
      fun _ new t => new = s.source src ∧ FlagsKept s t

/-- 41_move_arith.md R121: `add`. -/
def Obligations.AddStoresSumAndCarry : Prop :=
  DecodesSD 2 .add ∧
  ∀ (src dst : Operand) (s : State), s.mem.wf →
    RunsAtDestination (.add src dst) dst (1 + src.sourceWords.length + dst.destWords.length) s
      fun cur new t =>
        let raw := cur.toNat + (s.source src).toNat + flagNat s.c
        new.toNat = raw % 65536 ∧ t.c = decide (raw > 0xFFFF) ∧ t.z = decide (raw % 65536 = 0)

/-- 41_move_arith.md R122: `sub`. -/
def Obligations.SubStoresDifferenceAndBorrow : Prop :=
  DecodesSD 3 .sub ∧
  ∀ (src dst : Operand) (s : State), s.mem.wf →
    RunsAtDestination (.sub src dst) dst (1 + src.sourceWords.length + dst.destWords.length) s
      fun cur new t =>
        let raw : Int := (cur.toNat : Int) - ((s.source src).toNat : Int) - (flagNat s.c : Int)
        (new.toNat : Int) = raw % 65536 ∧ t.c = decide (raw < 0) ∧ t.z = decide (raw % 65536 = 0)

/-- 41_move_arith.md R123: `cmp`, with all four modes on both sides. That the comparison is unsigned is the
spec's decision D16. -/
def Obligations.CmpWritesOnlyFlags : Prop :=
  DecodesSS 4 .cmp ∧
  ∀ (src dst : Operand) (s : State),
    Completes (.cmp src dst) s fun t =>
      t.z = decide (s.source src = s.source dst) ∧
      t.c = decide ((s.source dst).toNat ≤ (s.source src).toNat) ∧
      t.pc = s.pc + BitVec.ofNat 16 (1 + src.sourceWords.length + dst.sourceWords.length) ∧
      Frame [] [] s t

/-- 42_logic_incdec.md R140 to R142: `and`, `or`, `xor`, bit by bit; `C` is not written. -/
def Obligations.LogicIsBitwise : Prop :=
  (DecodesSD 5 .and ∧ DecodesSD 6 .or ∧ DecodesSD 7 .xor) ∧
  ∀ (src dst : Operand) (s : State), s.mem.wf →
    (RunsAtDestination (.and src dst) dst (1 + src.sourceWords.length + dst.destWords.length) s
      fun cur new t => (∀ i < 16, new.getLsbD i = (cur.getLsbD i && (s.source src).getLsbD i)) ∧
        t.z = decide (new = 0) ∧ t.c = s.c) ∧
    (RunsAtDestination (.or src dst) dst (1 + src.sourceWords.length + dst.destWords.length) s
      fun cur new t => (∀ i < 16, new.getLsbD i = (cur.getLsbD i || (s.source src).getLsbD i)) ∧
        t.z = decide (new = 0) ∧ t.c = s.c) ∧
    (RunsAtDestination (.xor src dst) dst (1 + src.sourceWords.length + dst.destWords.length) s
      fun cur new t => (∀ i < 16, new.getLsbD i = (cur.getLsbD i ^^ (s.source src).getLsbD i)) ∧
        t.z = decide (new = 0) ∧ t.c = s.c)

/-- 42_logic_incdec.md R143, R144: `inc` and `dec`, modulo 2^16; `C` is not written, even on a wrap. -/
def Obligations.IncAndDecStepByOne : Prop :=
  (DecodesD 8 .inc ∧ DecodesD 9 .dec) ∧
  ∀ (dst : Operand) (s : State), s.mem.wf →
    (RunsAtDestination (.inc dst) dst (1 + dst.destWords.length) s fun cur new t =>
      new.toNat = (cur.toNat + 1) % 65536 ∧ t.z = decide (new = 0) ∧ t.c = s.c) ∧
    (RunsAtDestination (.dec dst) dst (1 + dst.destWords.length) s fun cur new t =>
      (new.toNat + 1) % 65536 = cur.toNat ∧ t.z = decide (new = 0) ∧ t.c = s.c)

/-- 43_shift_rotate.md R160, R161: `shl` and `shr`, bit by bit; `C` gets the bit shifted out. -/
def Obligations.ShiftsMoveBitsByOne : Prop :=
  (DecodesD 10 .shl ∧ DecodesD 11 .shr) ∧
  ∀ (dst : Operand) (s : State), s.mem.wf →
    (RunsAtDestination (.shl dst) dst (1 + dst.destWords.length) s fun cur new t =>
      new.getLsbD 0 = false ∧ (∀ i < 15, new.getLsbD (i + 1) = cur.getLsbD i) ∧
      t.c = cur.getLsbD 15 ∧ t.z = decide (new = 0)) ∧
    (RunsAtDestination (.shr dst) dst (1 + dst.destWords.length) s fun cur new t =>
      new.getLsbD 15 = false ∧ (∀ i < 15, new.getLsbD i = cur.getLsbD (i + 1)) ∧
      t.c = cur.getLsbD 0 ∧ t.z = decide (new = 0))

/-- 43_shift_rotate.md R162, R163, with 90_conflicts.md C1 and C2: `rtl` and `rtr`, bit by bit; `C` gets
the bit carried round, and the old `C` is not used. -/
def Obligations.RotatesCarryTheEndBitRound : Prop :=
  (DecodesD 12 .rtl ∧ DecodesD 13 .rtr) ∧
  ∀ (dst : Operand) (s : State), s.mem.wf →
    (RunsAtDestination (.rtl dst) dst (1 + dst.destWords.length) s fun cur new t =>
      new.getLsbD 0 = cur.getLsbD 15 ∧ (∀ i < 15, new.getLsbD (i + 1) = cur.getLsbD i) ∧
      t.c = cur.getLsbD 15 ∧ t.z = decide (new = 0)) ∧
    (RunsAtDestination (.rtr dst) dst (1 + dst.destWords.length) s fun cur new t =>
      new.getLsbD 15 = cur.getLsbD 0 ∧ (∀ i < 15, new.getLsbD i = cur.getLsbD (i + 1)) ∧
      t.c = cur.getLsbD 0 ∧ t.z = decide (new = 0))

/-! ### Calls, stack and jumps -/

/-- 44_control_stack.md R180, R181: `call`, with the target resolved before `SP` changes and the address
after the whole instruction pushed. -/
def Obligations.CallPushesTheReturnAddress : Prop :=
  DecodesS 14 .call ∧
  ∀ (src : Operand) (s : State), s.mem.wf →
    Completes (.call src) s fun t =>
      t.pc = s.source src ∧ t.reg 7 = s.reg 7 - 1 ∧
      t.mem.readWord (s.reg 7 - 1) = s.pc + BitVec.ofNat 16 (1 + src.sourceWords.length) ∧
      FlagsKept s t ∧ Frame [7] [s.reg 7 - 1] s t

/-- 44_control_stack.md R182: `ret`. That its fields are ignored is the spec's decision D4. -/
def Obligations.RetPopsThePc : Prop :=
  DecodesN 15 .ret ∧
  ∀ s : State, Completes .ret s fun t =>
    t.pc = s.mem.readWord (s.reg 7) ∧ t.reg 7 = s.reg 7 + 1 ∧ FlagsKept s t ∧ Frame [7] [] s t

/-- 44_control_stack.md R184: `reti` has no effect beyond the advance of `pc`. -/
def Obligations.RetiHasNoEffect : Prop :=
  DecodesN 16 .reti ∧
  ∀ s : State, Completes .reti s fun t => t.pc = s.pc + 1 ∧ FlagsKept s t ∧ Frame [] [] s t

/-- 44_control_stack.md R186: `push`, with the source resolved before `SP` changes. -/
def Obligations.PushStoresBelowTheStack : Prop :=
  DecodesS 17 .push ∧
  ∀ (src : Operand) (s : State), s.mem.wf →
    Completes (.push src) s fun t =>
      t.reg 7 = s.reg 7 - 1 ∧ t.mem.readWord (s.reg 7 - 1) = s.source src ∧
      t.pc = s.pc + BitVec.ofNat 16 (1 + src.sourceWords.length) ∧
      FlagsKept s t ∧ Frame [7] [s.reg 7 - 1] s t

/-- 44_control_stack.md R188: `pop` into every destination but `r7`, `[r7]` and mode 0, in either mode and
under every `POP_VARIANT`. -/
def Obligations.PopMovesTheTopOfTheStack : Prop :=
  DecodesD 18 .pop ∧
  ∀ (dst : Operand) (loc : Location) (s : State), s.mem.wf → dst ≠ .reg 7 → dst ≠ .ind 7 →
    s.destLocation dst = some loc →
    Completes (.pop dst) s fun t =>
      t.readLoc loc = s.mem.readWord (s.reg 7) ∧ t.reg 7 = s.reg 7 + 1 ∧
      t.pc = s.pc + BitVec.ofNat 16 (1 + dst.destWords.length) ∧
      FlagsKept s t ∧ Frame (7 :: loc.regs) loc.words s t

/-- 44_control_stack.md R193, the spec's OPEN parameter of D9: `pop r7`, `pop [r7]` and `pop` with
destination mode 0 (whose strict fault is decision D8, its word log entry 6), under each `POP_VARIANT`. It holds of every value
of the parameter, so of the free one at reset (log entry 1). -/
def Obligations.PopFollowsItsVariant : Prop :=
  ∀ s : State, s.mem.wf →
    (Completes (.pop (.reg 7)) s fun t =>
      t.reg 7 = (if s.popVariant = .variantA then s.mem.readWord (s.reg 7) + 1
        else s.mem.readWord (s.reg 7)) ∧
      t.pc = s.pc + 1 ∧ FlagsKept s t ∧ Frame [7] [] s t) ∧
    (Completes (.pop (.ind 7)) s fun t =>
      t.mem.readWord (if s.popVariant = .variantC then s.reg 7 + 1 else s.reg 7) =
        s.mem.readWord (s.reg 7) ∧
      t.reg 7 = s.reg 7 + 1 ∧ t.pc = s.pc + 1 ∧ FlagsKept s t ∧
      Frame [7] [if s.popVariant = .variantC then s.reg 7 + 1 else s.reg 7] s t) ∧
    (∀ n : Word, s.strictDstMode0 = false → Completes (.pop (.imm n)) s fun t =>
      t.reg 7 = (if s.popVariant = .variantB then s.reg 7 else s.reg 7 + 1) ∧
      t.pc = s.pc + 1 ∧ FlagsKept s t ∧ Frame [7] [] s t) ∧
    (∀ n : Word, s.strictDstMode0 = true →
      exec (.pop (.imm n)) s = .fault (.invalidDestinationMode s.pc (s.mem.readWord s.pc)))

/-- 44_control_stack.md R187, an inference of the spec: `push` then `pop` restores `r7` and delivers the
value, for every value and every starting `r7`. -/
def Obligations.PushThenPopRestoresTheStack : Prop :=
  ∀ (src dst : Operand) (s : State), s.mem.wf → dst ≠ .reg 7 → dst ≠ .ind 7 →
    ∃ t, exec (.push src) s = .next t ∧
      ∀ loc, t.destLocation dst = some loc →
        ∃ u, exec (.pop dst) t = .next u ∧ u.reg 7 = s.reg 7 ∧ u.readLoc loc = s.source src

/-- 44_control_stack.md R183, an inference of the spec: after `call`, and then code that leaves `SP` and
the stacked word as it found them, `ret` restores `SP` and continues after the call. -/
def Obligations.CallThenRetReturns : Prop :=
  ∀ (src : Operand) (s : State), s.mem.wf →
    ∃ t, exec (.call src) s = .next t ∧
      ∀ v : State, v.reg 7 = t.reg 7 →
        v.mem.readWord (t.reg 7) = t.mem.readWord (t.reg 7) →
        ∃ u, exec .ret v = .next u ∧ u.reg 7 = s.reg 7 ∧
          u.pc = s.pc + BitVec.ofNat 16 (1 + src.sourceWords.length)

/-- 44_control_stack.md R195: `jmp`. -/
def Obligations.JmpSetsThePc : Prop :=
  DecodesS 19 .jmp ∧
  ∀ (src : Operand) (s : State), Completes (.jmp src) s fun t =>
    t.pc = s.source src ∧ FlagsKept s t ∧ Frame [] [] s t

/-- 44_control_stack.md R196 to R200: a conditional jump goes to its operand if its condition holds, and
past the whole instruction if not. That the operand is always consumed is the spec's decision D5, the
polarity of the conditions its decision D6. -/
def Obligations.ConditionalJumpsTestOneFlag : Prop :=
  (DecodesS 20 .jz ∧ DecodesS 21 .jnz ∧ DecodesS 22 .jc ∧ DecodesS 23 .jnc) ∧
  ∀ (src : Operand) (s : State),
    (Completes (.jz src) s fun t =>
      t.pc = (if s.z = true then s.source src
        else s.pc + BitVec.ofNat 16 (1 + src.sourceWords.length)) ∧
      FlagsKept s t ∧ Frame [] [] s t) ∧
    (Completes (.jnz src) s fun t =>
      t.pc = (if s.z = false then s.source src
        else s.pc + BitVec.ofNat 16 (1 + src.sourceWords.length)) ∧
      FlagsKept s t ∧ Frame [] [] s t) ∧
    (Completes (.jc src) s fun t =>
      t.pc = (if s.c = true then s.source src
        else s.pc + BitVec.ofNat 16 (1 + src.sourceWords.length)) ∧
      FlagsKept s t ∧ Frame [] [] s t) ∧
    (Completes (.jnc src) s fun t =>
      t.pc = (if s.c = false then s.source src
        else s.pc + BitVec.ofNat 16 (1 + src.sourceWords.length)) ∧
      FlagsKept s t ∧ Frame [] [] s t)

/-! ### Flag instructions, halt, unrecognised opcodes -/

/-- 45_flags_halt.md R210 to R213: `stc`, `clc`, `ei` and `di` write their one flag and nothing else. The
frames of `ei` and `di` are taken from the state with `IE` already written. -/
def Obligations.FlagInstructionsWriteOneFlag : Prop :=
  (DecodesN 24 .stc ∧ DecodesN 25 .clc ∧ DecodesN 26 .ei ∧ DecodesN 27 .di) ∧
  ∀ s : State,
    (Completes .stc s fun t => t.c = true ∧ t.z = s.z ∧ t.pc = s.pc + 1 ∧ Frame [] [] s t) ∧
    (Completes .clc s fun t => t.c = false ∧ t.z = s.z ∧ t.pc = s.pc + 1 ∧ Frame [] [] s t) ∧
    (Completes .ei s fun t =>
      t.ie = true ∧ FlagsKept s t ∧ t.pc = s.pc + 1 ∧ Frame [] [] (s.setIe true) t) ∧
    (Completes .di s fun t =>
      t.ie = false ∧ FlagsKept s t ∧ t.pc = s.pc + 1 ∧ Frame [] [] (s.setIe false) t)

/-- 45_flags_halt.md R214: `halt` changes nothing but `pc`, which is past its word, and its STEP returns
`halted`. -/
def Obligations.HaltReturnsHalted : Prop :=
  DecodesN 28 .halt ∧
  (∀ s : State, Completes .halt s fun t => t.pc = s.pc + 1 ∧ FlagsKept s t ∧ Frame [] [] s t) ∧
  (∀ s : State, s.opcodeAtPc = 28 → ∃ t, transact .step s = .next (t, .status .halted) ∧
    t.pc = s.pc + 1 ∧ FlagsKept s t ∧ Frame [] [] s t)

/-- 45_flags_halt.md R215: opcodes 0, 29, 30 and 31 consume their one word and do nothing, and their STEP
returns `continuing`. -/
def Obligations.UnrecognisedOpcodesDoNothing : Prop :=
  (DecodesN 0 .unrecognised0 ∧ DecodesN 29 .unrecognised29 ∧ DecodesN 30 .unrecognised30 ∧
    DecodesN 31 .unrecognised31) ∧
  (∀ i ∈ [Instr.unrecognised0, .unrecognised29, .unrecognised30, .unrecognised31], ∀ s : State,
    Completes i s fun t => t.pc = s.pc + 1 ∧ FlagsKept s t ∧ Frame [] [] s t) ∧
  (∀ s : State, s.opcodeAtPc ∈ [0, 29, 30, 31] → ∃ t, transact .step s = .next (t, .status .continuing) ∧
    t.pc = s.pc + 1 ∧ FlagsKept s t ∧ Frame [] [] s t)

/-- 40_operands.md R100 and 10_state.md R32: the transaction STEP is one step, and where the step completes
it returns `halted` exactly when the opcode is 28. A status beside the next state is log entry 4. -/
def Obligations.StatusIsHaltedOnlyForOpcode28 : Prop :=
  ∀ s : State,
    (∀ (t : State) (r : Response), transact .step s = .next (t, r) ↔
      step s = .next t ∧ r = .status (if s.opcodeAtPc = 28 then .halted else .continuing)) ∧
    (∀ f : Fault, transact .step s = .fault f ↔ step s = .fault f)

/-- 10_state.md R32, R34: the transaction RUN returns after exactly the first step that executes opcode 28.
With `fuel` steps allowed, a bound that is the model's (log entry 9), it returns `halted` in `t` if and only
if some number of steps below `fuel` reaches, with no opcode 28 on the way, a state whose step executes
opcode 28 and gives `t`; it reports that the bound ran out, in the state that `fuel` steps reach, if and only
if none of them executes opcode 28; it faults if and only if a step it reaches so does; and it does nothing
else. -/
def Obligations.RunEndsExactlyAtHalt : Prop :=
  ∀ (fuel : Nat) (s : State),
    (∀ t : State, transact (.run fuel) s = .next (t, .status .halted) ↔
      ∃ (k : Nat) (u : State), k < fuel ∧ ReachesWithoutHalt k s u ∧ u.opcodeAtPc = 28 ∧
        step u = .next t) ∧
    (∀ t : State, transact (.run fuel) s = .next (t, .outOfFuel) ↔ ReachesWithoutHalt fuel s t) ∧
    (∀ f : Fault, transact (.run fuel) s = .fault f ↔
      ∃ (k : Nat) (u : State), k < fuel ∧ ReachesWithoutHalt k s u ∧ step u = .fault f) ∧
    (∀ (t : State) (r : Response), transact (.run fuel) s = .next (t, r) →
      r = .status .halted ∨ r = .outOfFuel) ∧
    (∀ q : Refusal, transact (.run fuel) s ≠ .refused q)

/-! ### Memory and the host's transactions -/

/-- 20_memory.md R44: a byte write where a fragment covers the byte allocates nothing; elsewhere it splices
one fragment, the aligned chunk, in before the first fragment that starts above the byte, every other
byte of which still reads `INIT_BYTE`; and it changes the value of that byte only. -/
def Obligations.ByteWriteAllocatesTheAlignedChunk : Prop :=
  ∀ (m : Memory) (b : ByteAddr) (v : Byte), m.wf →
    (m.covered b.toNat → (m.byteWrite b v).fragments = m.fragments) ∧
    (¬ m.covered b.toNat → ∃ before after : List Nat, m.fragments = before ++ after ∧
      (∀ f ∈ before, f ≤ b.toNat) ∧ (∀ f ∈ after, b.toNat < f) ∧
      (m.byteWrite b v).fragments =
        before ++ (b &&& ~~~(BitVec.ofNat 17 (m.fragmentSize - 1))).toNat :: after ∧
      (∀ a : ByteAddr,
        (b &&& ~~~(BitVec.ofNat 17 (m.fragmentSize - 1))).toNat ≤ a.toNat →
        a.toNat < (b &&& ~~~(BitVec.ofNat 17 (m.fragmentSize - 1))).toNat + m.fragmentSize →
        a ≠ b → (m.byteWrite b v).byteRead a = m.initByte)) ∧
    (m.byteWrite b v).byteRead b = v ∧
    (∀ a : ByteAddr, a ≠ b → (m.byteWrite b v).byteRead a = m.byteRead a)

/-- 20_memory.md R50, R51: a word is the byte at `2a` and the byte at `2a + 1`, high byte first; WORD_READ
changes nothing, and WORD_WRITE is two byte writes, the high byte's first, which change those bytes only. -/
def Obligations.WordsAreTwoBytesHighFirst : Prop :=
  ∀ (s : State) (a v : Word), s.mem.wf →
    (transact (.wordRead a) s = .next (s, .word (BitVec.ofNat 16
      ((s.mem.byteRead (BitVec.ofNat 17 (2 * a.toNat))).toNat * 256 +
        (s.mem.byteRead (BitVec.ofNat 17 (2 * a.toNat + 1))).toNat)))) ∧
    ∃ t, transact (.wordWrite a v) s = .next (t, .none) ∧
      t.mem = (s.mem.byteWrite (BitVec.ofNat 17 (2 * a.toNat)) (BitVec.ofNat 8 (v.toNat / 256))).byteWrite
        (BitVec.ofNat 17 (2 * a.toNat + 1)) (BitVec.ofNat 8 (v.toNat % 256)) ∧
      (t.mem.byteRead (BitVec.ofNat 17 (2 * a.toNat))).toNat = v.toNat / 256 ∧
      (t.mem.byteRead (BitVec.ofNat 17 (2 * a.toNat + 1))).toNat = v.toNat % 256 ∧
      t.pc = s.pc ∧ FlagsKept s t ∧ Frame [] [a] s t

/-- 10_state.md R32 with 20_memory.md R43, R44: BYTE_READ changes nothing and gives the byte of the fragment
that covers `b`, or `INIT_BYTE` where none does; BYTE_WRITE is the byte write, after which BYTE_READ gives
`v`, and which changes no other byte, register, flag or parameter. The fragments, with their bytes, are those
the model computes from its cells (log entry 3, DESIGN CHOICE). -/
def Obligations.ByteTransactionsReadAndWriteOneByte : Prop :=
  ∀ (s : State) (b : ByteAddr) (v : Byte), s.mem.wf →
    (∃ x : Byte, transact (.byteRead b) s = .next (s, .byte x) ∧ x = s.mem.byteRead b ∧
      (∀ f ∈ s.mem.fragmentList, f.1 ≤ b.toNat → b.toNat < f.1 + f.2.length →
        f.2[b.toNat - f.1]? = some x) ∧
      ((∀ f ∈ s.mem.fragmentList, ¬(f.1 ≤ b.toNat ∧ b.toNat < f.1 + f.2.length)) →
        x = s.mem.initByte)) ∧
    ∃ t, transact (.byteWrite b v) s = .next (t, .none) ∧ t.mem = s.mem.byteWrite b v ∧
      transact (.byteRead b) t = .next (t, .byte v) ∧
      (∀ a : ByteAddr, a ≠ b → t.mem.byteRead a = s.mem.byteRead a) ∧
      RegsKept [] s t ∧ t.pc = s.pc ∧ FlagsKept s t ∧ t.ie = s.ie ∧ ParamsKept s t

/-- 10_state.md R32, the spec's decision D17: DBG_RANGE reads `n` words from `a` on, modulo 2^16, and
changes nothing. -/
def Obligations.RangeReadWrapsAround : Prop :=
  ∀ (s : State) (a : Word) (n : Nat), 1 ≤ n → n ≤ 65536 →
    transact (.dbgRange a n) s =
      .next (s, .words ((List.range n).map fun k => s.mem.readWord (a + BitVec.ofNat 16 k)))

/-- 60_exceptions.md R244: the debug accessors give each register, `pc`, `C` and `Z`, and change nothing. -/
def Obligations.DebugAccessorsOnlyRead : Prop :=
  ∀ (s : State) (r : RegNo),
    transact (.dbgReg r) s = .next (s, .word (s.reg r)) ∧
    transact .dbgPc s = .next (s, .word s.pc) ∧
    transact .dbgC s = .next (s, .flag s.c) ∧
    transact .dbgZ s = .next (s, .flag s.z)

/-- 10_state.md R36: the state after RESET, for every value of the four parameters; what a word then reads
is an inference of the spec. The reset state of the model is the one of the reference parameters (log
entries 1, 2 and 7). -/
def Obligations.ResetStateIsAllZero : Prop :=
  (∀ (initByte : Byte) (k : Fin 18) (strict : Bool) (variant : PopVariant),
    let s := State.construct initByte k strict variant
    (∀ r, s.reg r = 0) ∧ s.pc = 0 ∧ s.c = false ∧ s.z = false ∧ s.ie = false ∧
    (∀ b, s.mem.byteRead b = initByte) ∧ (∀ a, s.mem.readWord a = initByte ++ initByte) ∧
    s.mem.fragments = []) ∧
  State.reset = State.construct 0x00 17 false State.reset.popVariant

/-- 70_reset_and_hazards.md R250 and 93_implementation_defined.md U11: RESET constructs the block anew for
each legal `FRAGMENT_SIZE`, and the model refuses every other. That memory is reset with the CPU is the
spec's decision D12, the legal sizes its decision D18. -/
def Obligations.ResetTakesOnlyLegalFragmentSizes : Prop :=
  ∀ (initByte : Byte) (s : State),
    (∀ k : Fin 18, transact (.reset initByte (2 ^ k.val)) s =
      .next (State.construct initByte k s.strictDstMode0 s.popVariant, .none)) ∧
    (∀ n : Nat, (∀ k : Fin 18, n ≠ 2 ^ k.val) →
      transact (.reset initByte n) s = .refused (.illegalFragmentSize n))

/-! ### Invariants and whole-machine rules -/

/-- 20_memory.md R42, R45: every step keeps the memory's canonical form: cells ascending and none equal to
`INIT_BYTE`, each in a fragment; fragments ascending, aligned, in the byte space. The form of the cells is
the model's (log entry 3), that of the fragments the spec's. -/
def Obligations.StepKeepsMemoryCanonical : Prop :=
  ∀ s t : State, s.mem.wf → step s = .next t → t.mem.wf

/-- 20_memory.md R42: the memory of the reset state is in canonical form. The form of the cells is the
model's (log entry 3, DESIGN CHOICE), that of the fragments the spec's. -/
def Obligations.ResetMemoryIsCanonical : Prop := State.reset.mem.wf

/-- 20_memory.md R42, R45: every transaction of the host's, RUN with any bound among them, keeps the memory's
canonical form. The form of the cells is the model's (log entry 3, DESIGN CHOICE), that of the fragments the
spec's; the bound of RUN is log entry 9 (DESIGN CHOICE). -/
def Obligations.TransactionsKeepMemoryCanonical : Prop :=
  ∀ (x : Transaction) (s t : State) (r : Response), s.mem.wf → transact x s = .next (t, r) → t.mem.wf

/-- 20_memory.md R40 and 00_scope.md R10: no step, and no transaction but RESET, the construction, changes
`INIT_BYTE` or `FRAGMENT_SIZE`, and no transaction at all changes `STRICT_DST_MODE0` or `POP_VARIANT`. The
values at reset are the model's: the reference values of `INIT_BYTE` and `FRAGMENT_SIZE` (log entry 7,
DEDUCED) and of `STRICT_DST_MODE0` (log entry 2, DEDUCED), and the free value of `POP_VARIANT` (log entry 1,
DESIGN CHOICE). That RESET keeps the two implementation parameters is log entry 10. -/
def Obligations.ParametersChangeOnlyInReset : Prop :=
  (State.reset.mem.initByte = 0x00 ∧ State.reset.mem.fragmentSize = 2 ^ 17 ∧
    State.reset.strictDstMode0 = false ∧ State.reset.popVariant = Config.popVariant) ∧
  (∀ s t : State, step s = .next t → ParamsKept s t) ∧
  ∀ (x : Transaction) (s t : State) (p : Response), transact x s = .next (t, p) →
    t.strictDstMode0 = s.strictDstMode0 ∧ t.popVariant = s.popVariant ∧
    ((∀ init size, x ≠ .reset init size) → ParamsKept s t)

/-- 20_memory.md R46: no step merges, shrinks or frees a fragment: the fragments before it are among those
after it, in order, and all have the one size. -/
def Obligations.StepNeverFreesFragments : Prop :=
  ∀ s t : State, step s = .next t →
    s.mem.fragments.Sublist t.mem.fragments ∧ t.mem.fragmentSize = s.mem.fragmentSize

/-- 20_memory.md R47 and 10_state.md R31, an inference of the spec: no step can observe the fragments, the
fragment size, or which bytes were ever written: from two states that differ in those only, a step gives
states that differ in those only, or the same fault. -/
def Obligations.StepSeesOnlyByteValues : Prop :=
  ∀ s t : State, s.mem.wf → t.mem.wf → SameButFragments s t →
    OutcomeRel SameButFragments (step s) (step t)

/-- 10_state.md R28: nothing reads `IE`: no transaction, step and run among them, gives another response or
another state, `IE` apart, from a state with another `IE`; and only `ei` and `di` write it. -/
def Obligations.InterruptFlagIsNeverRead : Prop :=
  (∀ (x : Transaction) (s t : State), SameButIe s t →
    ReplyRel SameButIe (transact x s) (transact x t)) ∧
  (∀ s t : State, step s = .next t → t.ie ≠ s.ie → s.opcodeAtPc = 26 ∨ s.opcodeAtPc = 27)

/-- 10_state.md R23, an inference of the spec: a step changes no register but one its destination fields
name in mode 1, or `r7` in `call`, `ret`, `push` and `pop`. -/
def Obligations.StepWritesOnlyNamedRegisters : Prop :=
  ∀ (s t : State) (r : RegNo), step s = .next t → t.reg r ≠ s.reg r →
    ((s.opcodeAtPc ∈ opcodesSD ∨ s.opcodeAtPc ∈ opcodesD) ∧
      dstMode (s.mem.readWord s.pc) = 1 ∧ dstReg (s.mem.readWord s.pc) = r) ∨
    (r = 7 ∧ s.opcodeAtPc ∈ [14, 15, 17, 18])

/-- 10_state.md R27: which opcodes write each flag, and no other does. That `copy` writes none is the spec's
decision D10. -/
def Obligations.StepWritesOnlyTabledFlags : Prop :=
  ∀ s t : State, step s = .next t →
    (t.c ≠ s.c → s.opcodeAtPc ∈ [2, 3, 4, 10, 11, 12, 13, 24, 25]) ∧
    (t.z ≠ s.z → s.opcodeAtPc ∈ [2, 3, 4, 5, 6, 7, 8, 9, 10, 11, 12, 13]) ∧
    (t.ie ≠ s.ie → s.opcodeAtPc ∈ [26, 27])
end

