-- ==== Sys2Proof/Laws/Decode.lean ====
section
/-! SUPPORT. The fields of an encoded instruction word, and operands read back from their fields and
extension words. -/

namespace Sys2Proof

/-! ### The fields of `instrWord` -/

/-- The instruction word as a number: the formula of 30_encoding.md R70 with bit 15 clear. -/
theorem instrWord_toNat (op : BitVec 5) (sm : BitVec 2) (sr : RegNo) (dm : BitVec 2) (dr : RegNo) :
    (instrWord op sm sr dm dr).toNat =
      op.toNat * 2 ^ 10 + sm.toNat * 2 ^ 8 + sr.val * 2 ^ 5 + dm.toNat * 2 ^ 3 + dr.val := by
  have := op.isLt; have := sm.isLt; have := sr.isLt; have := dm.isLt; have := dr.isLt
  simp only [instrWord, BitVec.toNat_append, BitVec.toNat_ofFin]
  rw [← Nat.shiftLeft_add_eq_or_of_lt (by omega), ← Nat.shiftLeft_add_eq_or_of_lt (by omega),
    ← Nat.shiftLeft_add_eq_or_of_lt (by omega), ← Nat.shiftLeft_add_eq_or_of_lt (by omega),
    ← Nat.shiftLeft_add_eq_or_of_lt (by omega)]
  simp only [Nat.shiftLeft_eq, BitVec.toNat_ofNat]
  omega

section fields
variable (op : BitVec 5) (sm : BitVec 2) (sr : RegNo) (dm : BitVec 2) (dr : RegNo)

@[simp] theorem opcodeField_instrWord : opcodeField (instrWord op sm sr dm dr) = op := by
  have := op.isLt; have := sm.isLt; have := sr.isLt; have := dm.isLt; have := dr.isLt
  apply BitVec.eq_of_toNat_eq
  simp only [opcodeField, BitVec.extractLsb'_toNat, instrWord_toNat, Nat.shiftRight_eq_div_pow]
  omega

@[simp] theorem srcMode_instrWord : srcMode (instrWord op sm sr dm dr) = sm := by
  have := op.isLt; have := sm.isLt; have := sr.isLt; have := dm.isLt; have := dr.isLt
  apply BitVec.eq_of_toNat_eq
  simp only [srcMode, BitVec.extractLsb'_toNat, instrWord_toNat, Nat.shiftRight_eq_div_pow]
  omega

@[simp] theorem srcReg_instrWord : srcReg (instrWord op sm sr dm dr) = sr := by
  have := op.isLt; have := sm.isLt; have := sr.isLt; have := dm.isLt; have := dr.isLt
  apply Fin.ext
  simp only [srcReg, BitVec.val_toFin, BitVec.extractLsb'_toNat, instrWord_toNat,
    Nat.shiftRight_eq_div_pow]
  omega

@[simp] theorem dstMode_instrWord : dstMode (instrWord op sm sr dm dr) = dm := by
  have := op.isLt; have := sm.isLt; have := sr.isLt; have := dm.isLt; have := dr.isLt
  apply BitVec.eq_of_toNat_eq
  simp only [dstMode, BitVec.extractLsb'_toNat, instrWord_toNat, Nat.shiftRight_eq_div_pow]
  omega

@[simp] theorem dstReg_instrWord : dstReg (instrWord op sm sr dm dr) = dr := by
  have := op.isLt; have := sm.isLt; have := sr.isLt; have := dm.isLt; have := dr.isLt
  apply Fin.ext
  simp only [dstReg, BitVec.val_toFin, BitVec.extractLsb'_toNat, instrWord_toNat,
    Nat.shiftRight_eq_div_pow]
  omega

end fields

/-! ### Operands from their fields -/

/-- A source operand is read back from its mode, its register field and its extension word. -/
theorem sourceOperand_mode_regField (o : Operand) (e : Word) (h : o.sourceWords.head?.getD e = e) :
    sourceOperand o.mode o.regField e = o := by
  cases o <;> simp_all [sourceOperand, Operand.mode, Operand.regField, Operand.sourceWords]

/-- A well-formed destination operand is read back from its mode, its register field and its extension
word. -/
theorem destOperand_mode_regField (o : Operand) (e : Word) (hw : o.wellFormedDest = true)
    (h : o.destWords.head?.getD e = e) : destOperand o.mode o.regField e = o := by
  cases o <;>
    simp_all [destOperand, Operand.mode, Operand.regField, Operand.destWords, Operand.wellFormedDest]

theorem sourceExt_mode (o : Operand) : sourceExt o.mode = o.sourceWords.length := by
  cases o <;> rfl

theorem destExt_mode (o : Operand) : destExt o.mode = o.destWords.length := by
  cases o <;> rfl

theorem mode_sourceOperand (m : BitVec 2) (r : RegNo) (e : Word) : (sourceOperand m r e).mode = m := by
  have : m = 0 ∨ m = 1 ∨ m = 2 ∨ m = 3 := by revert m; decide
  rcases this with rfl | rfl | rfl | rfl <;> rfl

theorem mode_destOperand (m : BitVec 2) (r : RegNo) (e : Word) : (destOperand m r e).mode = m := by
  have : m = 0 ∨ m = 1 ∨ m = 2 ∨ m = 3 := by revert m; decide
  rcases this with rfl | rfl | rfl | rfl <;> rfl

/-! ### Bytes and words -/

@[simp] theorem bytesOfWords_length (ws : List Word) : (bytesOfWords ws).length = 2 * ws.length := by
  induction ws with
  | nil => rfl
  | cons w ws ih => simp only [bytesOfWords, List.length_cons, ih]; omega

end Sys2Proof
end

