-- ==== Sys2Proof/Laws/Memory.lean ====
section
/-! SUPPORT. The laws of the sparse byte memory and the word adapter: a read after a write, what a write
does to the fragments, and that every operation keeps the canonical form. -/

namespace Sys2Proof.Machine

/-! ### Byte order and addresses -/

@[simp] theorem highByteAddr_toNat (a : Word) : (highByteAddr a).toNat = 2 * a.toNat := by
  have := a.isLt
  simp only [highByteAddr, BitVec.toNat_ofNat]
  omega

@[simp] theorem lowByteAddr_toNat (a : Word) : (lowByteAddr a).toNat = 2 * a.toNat + 1 := by
  have := a.isLt
  simp only [lowByteAddr, BitVec.toNat_ofNat]
  omega

theorem highByteAddr_ne_lowByteAddr (a b : Word) : highByteAddr a ≠ lowByteAddr b := by
  intro h
  have := congrArg BitVec.toNat h
  simp only [highByteAddr_toNat, lowByteAddr_toNat] at this
  omega

theorem highByteAddr_inj {a b : Word} : highByteAddr a = highByteAddr b ↔ a = b := by
  constructor
  · intro h
    have := congrArg BitVec.toNat h
    simp only [highByteAddr_toNat] at this
    exact BitVec.eq_of_toNat_eq (by omega)
  · rintro rfl; rfl

theorem lowByteAddr_inj {a b : Word} : lowByteAddr a = lowByteAddr b ↔ a = b := by
  constructor
  · intro h
    have := congrArg BitVec.toNat h
    simp only [lowByteAddr_toNat] at this
    exact BitVec.eq_of_toNat_eq (by omega)
  · rintro rfl; rfl

@[simp] theorem wordOfBytes_high_low (v : Word) : wordOfBytes (highByte v) (lowByte v) = v := by
  apply BitVec.eq_of_toNat_eq
  have := v.isLt
  simp only [wordOfBytes, highByte, lowByte, BitVec.toNat_append, BitVec.extractLsb'_toNat]
  rw [← Nat.shiftLeft_add_eq_or_of_lt (by omega)]
  simp only [Nat.shiftLeft_eq, Nat.shiftRight_eq_div_pow]
  omega

@[simp] theorem highByte_wordOfBytes (h l : Byte) : highByte (wordOfBytes h l) = h := by
  apply BitVec.eq_of_toNat_eq
  have := h.isLt; have := l.isLt
  simp only [wordOfBytes, highByte, BitVec.toNat_append, BitVec.extractLsb'_toNat]
  rw [← Nat.shiftLeft_add_eq_or_of_lt (by omega)]
  simp only [Nat.shiftLeft_eq, Nat.shiftRight_eq_div_pow]
  omega

@[simp] theorem lowByte_wordOfBytes (h l : Byte) : lowByte (wordOfBytes h l) = l := by
  apply BitVec.eq_of_toNat_eq
  have := h.isLt; have := l.isLt
  simp only [wordOfBytes, lowByte, BitVec.toNat_append, BitVec.extractLsb'_toNat]
  rw [← Nat.shiftLeft_add_eq_or_of_lt (by omega)]
  simp only [Nat.shiftLeft_eq, Nat.shiftRight_eq_div_pow]
  omega

/-! ### The list of cells -/

/-- Every address the list names is above `b`. -/
theorem cellAt_of_above {init : Byte} {b : Nat} {cells : List Host.Cell}
    (h : ∀ cell ∈ cells, b < cell.1) : cellAt init b cells = init := by
  induction cells with
  | nil => rfl
  | cons cell rest ih =>
    have h1 := h cell (by simp)
    rw [cellAt, if_neg (by omega)]
    exact ih fun x hx => h x (by simp [hx])

theorem cellAt_setCell_self {init : Byte} {b : Nat} {v : Byte} {cells : List Host.Cell}
    (h : (cells.map Prod.fst).Pairwise (· < ·)) : cellAt init b (setCell init b v cells) = v := by
  induction cells with
  | nil => by_cases hv : v = init <;> simp [setCell, cellAt, hv]
  | cons cell rest ih =>
    obtain ⟨a, x⟩ := cell
    simp only [List.map_cons, List.pairwise_cons, List.mem_map, forall_exists_index, and_imp,
      forall_apply_eq_imp_iff₂] at h
    by_cases h1 : b < a
    · by_cases hv : v = init
      · simp only [setCell, h1, hv, if_true]
        exact cellAt_of_above fun c hc => by
          rcases List.mem_cons.1 hc with rfl | hc
          · exact h1
          · exact h1.trans (h.1 c hc)
      · simp [setCell, h1, hv, cellAt]
    · by_cases h2 : b = a
      · by_cases hv : v = init
        · subst h2
          simp only [setCell, lt_irrefl, hv, if_true, if_false]
          exact cellAt_of_above h.1
        · simp [setCell, h2, hv, cellAt]
      · simp only [setCell, h1, h2, if_false, cellAt]
        rw [if_neg (fun e => h2 e.symm)]
        exact ih h.2

theorem cellAt_setCell_ne {init : Byte} {a b : Nat} {v : Byte} {cells : List Host.Cell}
    (h : a ≠ b) : cellAt init a (setCell init b v cells) = cellAt init a cells := by
  induction cells with
  | nil => by_cases hv : v = init <;> simp [setCell, cellAt, hv, h.symm]
  | cons cell rest ih =>
    obtain ⟨k, x⟩ := cell
    by_cases h1 : b < k
    · by_cases hv : v = init <;> simp [setCell, h1, hv, cellAt, h.symm]
    · by_cases h2 : b = k
      · have h3 : k ≠ a := fun e => h (e.symm.trans h2.symm)
        by_cases hv : v = init <;> simp [setCell, hv, cellAt, h2, h3]
      · simp [setCell, h1, h2, cellAt, ih]

theorem mem_setCell {init : Byte} {b : Nat} {v : Byte} {cells : List Host.Cell} {cell : Host.Cell}
    (h : cell ∈ setCell init b v cells) : (cell = (b, v) ∧ v ≠ init) ∨ cell ∈ cells := by
  induction cells with
  | nil => by_cases hv : v = init <;> simp_all [setCell]
  | cons head rest ih =>
    obtain ⟨a, x⟩ := head
    by_cases hv : v = init <;> by_cases h1 : b < a <;> by_cases h2 : b = a <;>
      simp only [setCell, h1, h2, hv, if_true, if_false, lt_irrefl, List.mem_cons] at h ih ⊢ <;> tauto

theorem setCell_ascending {init : Byte} {b : Nat} {v : Byte} {cells : List Host.Cell}
    (h : (cells.map Prod.fst).Pairwise (· < ·)) :
    ((setCell init b v cells).map Prod.fst).Pairwise (· < ·) := by
  induction cells with
  | nil => by_cases hv : v = init <;> simp [setCell, hv]
  | cons head rest ih =>
    obtain ⟨a, x⟩ := head
    have h0 := h
    simp only [List.map_cons, List.pairwise_cons, List.mem_map, forall_exists_index, and_imp,
      forall_apply_eq_imp_iff₂] at h
    by_cases h1 : b < a
    · by_cases hv : v = init
      · simpa only [setCell, h1, hv, if_true] using h0
      · simp only [setCell, h1, hv, if_true, if_false, List.map_cons, List.pairwise_cons,
          List.mem_cons, List.mem_map, forall_eq_or_imp, forall_exists_index, and_imp,
          forall_apply_eq_imp_iff₂]
        exact ⟨⟨trivial, fun c hc => h1.trans (h.1 c hc)⟩, h.1, h.2⟩
    · by_cases h2 : b = a
      · subst h2
        by_cases hv : v = init
        · simpa only [setCell, lt_irrefl, hv, if_true, if_false] using h.2
        · simpa only [setCell, lt_irrefl, hv, if_true, if_false, List.map_cons] using h0
      · simp only [setCell, h1, h2, if_false, List.map_cons, List.pairwise_cons, List.mem_map,
          forall_exists_index, and_imp, forall_apply_eq_imp_iff₂]
        refine ⟨fun c hc => ?_, ih h.2⟩
        rcases mem_setCell hc with ⟨rfl, -⟩ | hc
        · omega
        · exact h.1 c hc

/-! ### The list of fragments -/

theorem chunkStart_le (size b : Nat) : chunkStart size b ≤ b := Nat.div_mul_le_self b size

theorem lt_chunkStart_add {size : Nat} (b : Nat) (h : 0 < size) : b < chunkStart size b + size := by
  have := Nat.div_add_mod b size
  have := Nat.mod_lt b h
  rw [chunkStart, Nat.mul_comm]
  omega

theorem chunkStart_mod (size b : Nat) : chunkStart size b % size = 0 := Nat.mul_mod_left _ _

/-- A write's chunk start is `b & ~(FRAGMENT_SIZE - 1)`, computed on 17 bits (20_memory.md R44). -/
theorem chunkStart_eq_mask (k : Fin 18) (b : ByteAddr) :
    chunkStart (2 ^ k.val) b.toNat = (b &&& ~~~(BitVec.ofNat 17 (2 ^ k.val - 1))).toNat := by
  have hb := b.isLt
  have hlt : chunkStart (2 ^ k.val) b.toNat < 2 ^ 17 := (chunkStart_le _ _).trans_lt hb
  have hk : k.val ≤ 17 := by omega
  suffices h : BitVec.ofNat 17 (chunkStart (2 ^ k.val) b.toNat) =
      b &&& ~~~(BitVec.ofNat 17 (2 ^ k.val - 1)) by
    rw [← h, BitVec.toNat_ofNat, Nat.mod_eq_of_lt hlt]
  have hdef : chunkStart (2 ^ k.val) b.toNat = (b.toNat >>> k.val) <<< k.val := by
    rw [chunkStart, Nat.shiftLeft_eq, Nat.shiftRight_eq_div_pow]
  apply BitVec.eq_of_getLsbD_eq
  intro i hi
  simp only [hdef, BitVec.getLsbD_ofNat, BitVec.getLsbD_and, BitVec.getLsbD_not, hi,
    Nat.testBit_shiftLeft, Nat.testBit_shiftRight, Nat.testBit_two_pow_sub_one, BitVec.testBit_toNat]
  by_cases h : k.val ≤ i
  · simp [h, Nat.not_lt.2 h]
  · simp [h, Nat.not_le.1 h]

theorem mem_allocate {size b f : Nat} {fs : List Nat} (h : f ∈ allocate size b fs) :
    f = chunkStart size b ∨ f ∈ fs := by
  induction fs with
  | nil => simpa [allocate] using h
  | cons g rest ih =>
    simp only [allocate] at h
    split at h
    · exact .inr h
    · split at h
      · simpa using h
      · rcases List.mem_cons.1 h with rfl | h
        · simp
        · rcases ih h with h | h <;> simp [h]

theorem sublist_allocate (size b : Nat) (fs : List Nat) : fs.Sublist (allocate size b fs) := by
  induction fs with
  | nil => simp
  | cons g rest ih =>
    simp only [allocate]
    split
    · exact List.Sublist.refl _
    · split
      · exact List.sublist_cons_self _ _
      · exact ih.cons_cons g

/-- After a write, some fragment covers the written byte. -/
theorem allocate_covers {size : Nat} (b : Nat) (hs : 0 < size) (fs : List Nat) :
    ∃ f ∈ allocate size b fs, f ≤ b ∧ b < f + size := by
  have hnew : chunkStart size b ≤ b ∧ b < chunkStart size b + size :=
    ⟨chunkStart_le _ _, lt_chunkStart_add b hs⟩
  induction fs with
  | nil => exact ⟨_, by simp [allocate], hnew⟩
  | cons g rest ih =>
    simp only [allocate]
    split
    · exact ⟨g, by simp, by assumption⟩
    · split
      · exact ⟨_, by simp, hnew⟩
      · obtain ⟨f, hf, h⟩ := ih
        exact ⟨f, by simp [hf], h⟩

theorem allocate_ascending {size : Nat} (b : Nat) (hs : 0 < size) {fs : List Nat}
    (h : fs.Pairwise (· < ·)) : (allocate size b fs).Pairwise (· < ·) := by
  induction fs with
  | nil => simp [allocate]
  | cons g rest ih =>
    have h0 := h
    simp only [List.pairwise_cons] at h
    simp only [allocate]
    split
    · exact h0
    · rename_i h1
      split
      · rename_i h2
        have := chunkStart_le size b
        simp only [List.pairwise_cons, List.mem_cons, forall_eq_or_imp]
        exact ⟨⟨by omega, fun f hf => by have := h.1 f hf; omega⟩, h.1, h.2⟩
      · refine List.pairwise_cons.2 ⟨fun f hf => ?_, ih h.2⟩
        rcases mem_allocate hf with rfl | hf
        · have := lt_chunkStart_add b hs
          omega
        · exact h.1 f hf

/-- A write inside a fragment allocates nothing. -/
theorem allocate_of_covered {size b : Nat} {fs : List Nat} (h : fs.Pairwise (· < ·))
    (hc : ∃ f ∈ fs, f ≤ b ∧ b < f + size) : allocate size b fs = fs := by
  induction fs with
  | nil => simp at hc
  | cons g rest ih =>
    simp only [List.pairwise_cons] at h
    obtain ⟨f, hf, h1, h2⟩ := hc
    rcases List.mem_cons.1 hf with rfl | hf
    · simp [allocate, h1, h2]
    · have hg := h.1 f hf
      simp only [allocate]
      split
      · rfl
      · rw [if_neg (by omega), ih h.2 ⟨f, hf, h1, h2⟩]

/-- A write outside every fragment splices in its chunk before the first fragment that starts above. -/
theorem allocate_of_not_covered {size b : Nat} {fs : List Nat} (h : fs.Pairwise (· < ·))
    (hc : ¬ ∃ f ∈ fs, f ≤ b ∧ b < f + size) :
    ∃ before after, fs = before ++ after ∧ (∀ f ∈ before, f ≤ b) ∧ (∀ f ∈ after, b < f) ∧
      allocate size b fs = before ++ chunkStart size b :: after := by
  induction fs with
  | nil => exact ⟨[], [], by simp [allocate]⟩
  | cons g rest ih =>
    simp only [List.pairwise_cons] at h
    have hg : ¬ (g ≤ b ∧ b < g + size) := fun hg => hc ⟨g, by simp, hg⟩
    by_cases h1 : b < g
    · refine ⟨[], g :: rest, rfl, by simp, fun f hf => ?_, by simp [allocate, hg, h1]⟩
      rcases List.mem_cons.1 hf with rfl | hf
      · exact h1
      · exact h1.trans (h.1 f hf)
    · obtain ⟨before, after, he, hb, ha, hr⟩ := ih h.2 fun ⟨f, hf, hx⟩ => hc ⟨f, by simp [hf], hx⟩
      refine ⟨g :: before, after, by simp [he], fun f hf => ?_, ha, by simp [allocate, hg, h1, hr]⟩
      rcases List.mem_cons.1 hf with rfl | hf
      · omega
      · exact hb f hf

/-! ### Reads after writes -/

theorem Memory.fragmentSize_pos (m : Memory) : 0 < m.fragmentSize := Nat.pow_pos (by omega)

@[simp] theorem Memory.byteWrite_initByte (m : Memory) (b : ByteAddr) (v : Byte) :
    (m.byteWrite b v).initByte = m.initByte := rfl

@[simp] theorem Memory.byteWrite_fragLog (m : Memory) (b : ByteAddr) (v : Byte) :
    (m.byteWrite b v).fragLog = m.fragLog := rfl

@[simp] theorem Memory.byteWrite_unlisted (m : Memory) (b : ByteAddr) (v : Byte) :
    (m.byteWrite b v).unlisted = m.unlisted := rfl

@[simp] theorem Memory.byteWrite_fragmentSize (m : Memory) (b : ByteAddr) (v : Byte) :
    (m.byteWrite b v).fragmentSize = m.fragmentSize := rfl

theorem Memory.byteRead_byteWrite_self {m : Memory} (h : m.wf) (b : ByteAddr) (v : Byte) :
    (m.byteWrite b v).byteRead b = v := cellAt_setCell_self h.1

theorem Memory.byteRead_byteWrite_ne (m : Memory) {a b : ByteAddr} (v : Byte) (h : a ≠ b) :
    (m.byteWrite b v).byteRead a = m.byteRead a :=
  cellAt_setCell_ne fun e => h (BitVec.eq_of_toNat_eq e)

theorem Memory.covered_byteWrite {m : Memory} {x : Nat} (h : m.covered x) (b : ByteAddr) (v : Byte) :
    (m.byteWrite b v).covered x := by
  obtain ⟨f, hf, hx⟩ := h
  exact ⟨f, (sublist_allocate _ _ _).subset hf, hx⟩

theorem Memory.byteWrite_wf {m : Memory} (h : m.wf) (b : ByteAddr) (v : Byte) :
    (m.byteWrite b v).wf := by
  obtain ⟨h1, h2, h3, h4, h5⟩ := h
  refine ⟨setCell_ascending h1, fun cell hcell => ?_, fun cell hcell => ?_,
    allocate_ascending _ m.fragmentSize_pos h4, fun f hf => ?_⟩
  · rcases mem_setCell hcell with ⟨rfl, hv⟩ | hcell
    · exact hv
    · exact h2 cell hcell
  · rcases mem_setCell hcell with ⟨rfl, -⟩ | hcell
    · exact allocate_covers _ m.fragmentSize_pos _
    · exact Memory.covered_byteWrite (h3 cell hcell) b v
  · rcases mem_allocate hf with rfl | hf
    · exact ⟨chunkStart_mod _ _, (chunkStart_le _ _).trans_lt b.isLt⟩
    · exact h5 f hf

theorem Memory.writeWord_wf {m : Memory} (h : m.wf) (a v : Word) : (m.writeWord a v).wf :=
  Memory.byteWrite_wf (Memory.byteWrite_wf h _ _) _ _

theorem Memory.writeWords_wf {m : Memory} (h : m.wf) (a : Word) (ws : List Word) :
    (m.writeWords a ws).wf := by
  induction ws generalizing m a with
  | nil => exact h
  | cons w ws ih => exact ih (Memory.writeWord_wf h a w) (a + 1)

theorem Memory.fresh_wf (initByte : Byte) (fragLog : Fin 18) : (Memory.fresh initByte fragLog).wf := by
  simp [Memory.wf, Memory.fresh]

@[simp] theorem Memory.fresh_byteRead (initByte : Byte) (fragLog : Fin 18) (b : ByteAddr) :
    (Memory.fresh initByte fragLog).byteRead b = initByte := rfl

@[simp] theorem Memory.writeWord_initByte (m : Memory) (a v : Word) :
    (m.writeWord a v).initByte = m.initByte := rfl

@[simp] theorem Memory.writeWord_fragLog (m : Memory) (a v : Word) :
    (m.writeWord a v).fragLog = m.fragLog := rfl

theorem Memory.sublist_writeWord_fragments (m : Memory) (a v : Word) :
    m.fragments.Sublist (m.writeWord a v).fragments :=
  (sublist_allocate _ _ _).trans (sublist_allocate _ _ _)

/-- A word write leaves every byte outside the word as it was. -/
theorem Memory.byteRead_writeWord_of_ne (m : Memory) {a : Word} {b : ByteAddr} (v : Word)
    (h1 : b ≠ highByteAddr a) (h2 : b ≠ lowByteAddr a) :
    (m.writeWord a v).byteRead b = m.byteRead b := by
  rw [Memory.writeWord, Memory.byteRead_byteWrite_ne _ _ h2, Memory.byteRead_byteWrite_ne _ _ h1]

theorem Memory.byteRead_writeWord_high {m : Memory} (h : m.wf) (a v : Word) :
    (m.writeWord a v).byteRead (highByteAddr a) = highByte v := by
  rw [Memory.writeWord, Memory.byteRead_byteWrite_ne _ _ (highByteAddr_ne_lowByteAddr a a),
    Memory.byteRead_byteWrite_self h]

theorem Memory.byteRead_writeWord_low {m : Memory} (h : m.wf) (a v : Word) :
    (m.writeWord a v).byteRead (lowByteAddr a) = lowByte v := by
  rw [Memory.writeWord, Memory.byteRead_byteWrite_self (Memory.byteWrite_wf h _ _)]

theorem Memory.readWord_writeWord_self {m : Memory} (h : m.wf) (a v : Word) :
    (m.writeWord a v).readWord a = v := by
  rw [Memory.readWord, Memory.byteRead_writeWord_high h, Memory.byteRead_writeWord_low h,
    wordOfBytes_high_low]

theorem Memory.readWord_writeWord_ne (m : Memory) {a b : Word} (v : Word) (h : b ≠ a) :
    (m.writeWord a v).readWord b = m.readWord b := by
  rw [Memory.readWord, Memory.readWord,
    Memory.byteRead_writeWord_of_ne _ _ (fun e => h (highByteAddr_inj.1 e))
      (highByteAddr_ne_lowByteAddr _ _),
    Memory.byteRead_writeWord_of_ne _ _ (fun e => highByteAddr_ne_lowByteAddr _ _ e.symm)
      (fun e => h (lowByteAddr_inj.1 e))]

end Sys2Proof.Machine
end

