-- ==== Sys2Proof/Laws/State.lean ====
section
/-! SUPPORT. One lemma per field per update of the state, and what each update does to the reads of
registers, so that no proof unfolds a record update. -/

namespace Sys2Proof.Machine

/-! ### setReg -/

@[simp] theorem State.setReg_regs (s : State) (r : RegNo) (v : Word) : (s.setReg r v).regs = s.regs.set r v := rfl
@[simp] theorem State.setReg_pc (s : State) (r : RegNo) (v : Word) : (s.setReg r v).pc = s.pc := rfl
@[simp] theorem State.setReg_c (s : State) (r : RegNo) (v : Word) : (s.setReg r v).c = s.c := rfl
@[simp] theorem State.setReg_z (s : State) (r : RegNo) (v : Word) : (s.setReg r v).z = s.z := rfl
@[simp] theorem State.setReg_ie (s : State) (r : RegNo) (v : Word) : (s.setReg r v).ie = s.ie := rfl
@[simp] theorem State.setReg_mem (s : State) (r : RegNo) (v : Word) : (s.setReg r v).mem = s.mem := rfl
@[simp] theorem State.setReg_strictDstMode0 (s : State) (r : RegNo) (v : Word) : (s.setReg r v).strictDstMode0 = s.strictDstMode0 := rfl
@[simp] theorem State.setReg_popVariant (s : State) (r : RegNo) (v : Word) : (s.setReg r v).popVariant = s.popVariant := rfl

/-! ### jump -/

@[simp] theorem State.jump_regs (s : State) (a : Word) : (s.jump a).regs = s.regs := rfl
@[simp] theorem State.jump_pc (s : State) (a : Word) : (s.jump a).pc = a := rfl
@[simp] theorem State.jump_c (s : State) (a : Word) : (s.jump a).c = s.c := rfl
@[simp] theorem State.jump_z (s : State) (a : Word) : (s.jump a).z = s.z := rfl
@[simp] theorem State.jump_ie (s : State) (a : Word) : (s.jump a).ie = s.ie := rfl
@[simp] theorem State.jump_mem (s : State) (a : Word) : (s.jump a).mem = s.mem := rfl
@[simp] theorem State.jump_strictDstMode0 (s : State) (a : Word) : (s.jump a).strictDstMode0 = s.strictDstMode0 := rfl
@[simp] theorem State.jump_popVariant (s : State) (a : Word) : (s.jump a).popVariant = s.popVariant := rfl
@[simp] theorem State.jump_reg (s : State) (a : Word) (q : RegNo) : (s.jump a).reg q = s.reg q := rfl

/-! ### advance -/

@[simp] theorem State.advance_regs (s : State) (n : Nat) : (s.advance n).regs = s.regs := rfl
@[simp] theorem State.advance_pc (s : State) (n : Nat) : (s.advance n).pc = s.pc + BitVec.ofNat 16 n := rfl
@[simp] theorem State.advance_c (s : State) (n : Nat) : (s.advance n).c = s.c := rfl
@[simp] theorem State.advance_z (s : State) (n : Nat) : (s.advance n).z = s.z := rfl
@[simp] theorem State.advance_ie (s : State) (n : Nat) : (s.advance n).ie = s.ie := rfl
@[simp] theorem State.advance_mem (s : State) (n : Nat) : (s.advance n).mem = s.mem := rfl
@[simp] theorem State.advance_strictDstMode0 (s : State) (n : Nat) : (s.advance n).strictDstMode0 = s.strictDstMode0 := rfl
@[simp] theorem State.advance_popVariant (s : State) (n : Nat) : (s.advance n).popVariant = s.popVariant := rfl
@[simp] theorem State.advance_reg (s : State) (n : Nat) (q : RegNo) : (s.advance n).reg q = s.reg q := rfl

/-! ### setC -/

@[simp] theorem State.setC_regs (s : State) (b : Bool) : (s.setC b).regs = s.regs := rfl
@[simp] theorem State.setC_pc (s : State) (b : Bool) : (s.setC b).pc = s.pc := rfl
@[simp] theorem State.setC_c (s : State) (b : Bool) : (s.setC b).c = b := rfl
@[simp] theorem State.setC_z (s : State) (b : Bool) : (s.setC b).z = s.z := rfl
@[simp] theorem State.setC_ie (s : State) (b : Bool) : (s.setC b).ie = s.ie := rfl
@[simp] theorem State.setC_mem (s : State) (b : Bool) : (s.setC b).mem = s.mem := rfl
@[simp] theorem State.setC_strictDstMode0 (s : State) (b : Bool) : (s.setC b).strictDstMode0 = s.strictDstMode0 := rfl
@[simp] theorem State.setC_popVariant (s : State) (b : Bool) : (s.setC b).popVariant = s.popVariant := rfl
@[simp] theorem State.setC_reg (s : State) (b : Bool) (q : RegNo) : (s.setC b).reg q = s.reg q := rfl

/-! ### setZ -/

@[simp] theorem State.setZ_regs (s : State) (b : Bool) : (s.setZ b).regs = s.regs := rfl
@[simp] theorem State.setZ_pc (s : State) (b : Bool) : (s.setZ b).pc = s.pc := rfl
@[simp] theorem State.setZ_c (s : State) (b : Bool) : (s.setZ b).c = s.c := rfl
@[simp] theorem State.setZ_z (s : State) (b : Bool) : (s.setZ b).z = b := rfl
@[simp] theorem State.setZ_ie (s : State) (b : Bool) : (s.setZ b).ie = s.ie := rfl
@[simp] theorem State.setZ_mem (s : State) (b : Bool) : (s.setZ b).mem = s.mem := rfl
@[simp] theorem State.setZ_strictDstMode0 (s : State) (b : Bool) : (s.setZ b).strictDstMode0 = s.strictDstMode0 := rfl
@[simp] theorem State.setZ_popVariant (s : State) (b : Bool) : (s.setZ b).popVariant = s.popVariant := rfl
@[simp] theorem State.setZ_reg (s : State) (b : Bool) (q : RegNo) : (s.setZ b).reg q = s.reg q := rfl

/-! ### setIe -/

@[simp] theorem State.setIe_regs (s : State) (b : Bool) : (s.setIe b).regs = s.regs := rfl
@[simp] theorem State.setIe_pc (s : State) (b : Bool) : (s.setIe b).pc = s.pc := rfl
@[simp] theorem State.setIe_c (s : State) (b : Bool) : (s.setIe b).c = s.c := rfl
@[simp] theorem State.setIe_z (s : State) (b : Bool) : (s.setIe b).z = s.z := rfl
@[simp] theorem State.setIe_ie (s : State) (b : Bool) : (s.setIe b).ie = b := rfl
@[simp] theorem State.setIe_mem (s : State) (b : Bool) : (s.setIe b).mem = s.mem := rfl
@[simp] theorem State.setIe_strictDstMode0 (s : State) (b : Bool) : (s.setIe b).strictDstMode0 = s.strictDstMode0 := rfl
@[simp] theorem State.setIe_popVariant (s : State) (b : Bool) : (s.setIe b).popVariant = s.popVariant := rfl
@[simp] theorem State.setIe_reg (s : State) (b : Bool) (q : RegNo) : (s.setIe b).reg q = s.reg q := rfl

/-! ### writeWord -/

@[simp] theorem State.writeWord_regs (s : State) (a v : Word) : (s.writeWord a v).regs = s.regs := rfl
@[simp] theorem State.writeWord_pc (s : State) (a v : Word) : (s.writeWord a v).pc = s.pc := rfl
@[simp] theorem State.writeWord_c (s : State) (a v : Word) : (s.writeWord a v).c = s.c := rfl
@[simp] theorem State.writeWord_z (s : State) (a v : Word) : (s.writeWord a v).z = s.z := rfl
@[simp] theorem State.writeWord_ie (s : State) (a v : Word) : (s.writeWord a v).ie = s.ie := rfl
@[simp] theorem State.writeWord_mem (s : State) (a v : Word) : (s.writeWord a v).mem = s.mem.writeWord a v := rfl
@[simp] theorem State.writeWord_strictDstMode0 (s : State) (a v : Word) : (s.writeWord a v).strictDstMode0 = s.strictDstMode0 := rfl
@[simp] theorem State.writeWord_popVariant (s : State) (a v : Word) : (s.writeWord a v).popVariant = s.popVariant := rfl
@[simp] theorem State.writeWord_reg (s : State) (a v : Word) (q : RegNo) : (s.writeWord a v).reg q = s.reg q := rfl

/-! ### writeFlags -/

@[simp] theorem State.writeFlags_regs (s : State) (u : Update) : (s.writeFlags u).regs = s.regs := rfl
@[simp] theorem State.writeFlags_pc (s : State) (u : Update) : (s.writeFlags u).pc = s.pc := rfl
@[simp] theorem State.writeFlags_c (s : State) (u : Update) : (s.writeFlags u).c = u.c.getD s.c := rfl
@[simp] theorem State.writeFlags_z (s : State) (u : Update) : (s.writeFlags u).z = u.z.getD s.z := rfl
@[simp] theorem State.writeFlags_ie (s : State) (u : Update) : (s.writeFlags u).ie = s.ie := rfl
@[simp] theorem State.writeFlags_mem (s : State) (u : Update) : (s.writeFlags u).mem = s.mem := rfl
@[simp] theorem State.writeFlags_strictDstMode0 (s : State) (u : Update) : (s.writeFlags u).strictDstMode0 = s.strictDstMode0 := rfl
@[simp] theorem State.writeFlags_popVariant (s : State) (u : Update) : (s.writeFlags u).popVariant = s.popVariant := rfl
@[simp] theorem State.writeFlags_reg (s : State) (u : Update) (q : RegNo) : (s.writeFlags u).reg q = s.reg q := rfl

/-! ### setSp -/

@[simp] theorem State.setSp_regs (s : State) (v : Word) : (s.setSp v).regs = s.regs.set spReg v := rfl
@[simp] theorem State.setSp_pc (s : State) (v : Word) : (s.setSp v).pc = s.pc := rfl
@[simp] theorem State.setSp_c (s : State) (v : Word) : (s.setSp v).c = s.c := rfl
@[simp] theorem State.setSp_z (s : State) (v : Word) : (s.setSp v).z = s.z := rfl
@[simp] theorem State.setSp_ie (s : State) (v : Word) : (s.setSp v).ie = s.ie := rfl
@[simp] theorem State.setSp_mem (s : State) (v : Word) : (s.setSp v).mem = s.mem := rfl
@[simp] theorem State.setSp_strictDstMode0 (s : State) (v : Word) : (s.setSp v).strictDstMode0 = s.strictDstMode0 := rfl
@[simp] theorem State.setSp_popVariant (s : State) (v : Word) : (s.setSp v).popVariant = s.popVariant := rfl

/-! ### dropTop -/

@[simp] theorem State.dropTop_regs (s : State) : s.dropTop.regs = s.regs.set spReg (s.sp + 1) := rfl
@[simp] theorem State.dropTop_pc (s : State) : s.dropTop.pc = s.pc := rfl
@[simp] theorem State.dropTop_c (s : State) : s.dropTop.c = s.c := rfl
@[simp] theorem State.dropTop_z (s : State) : s.dropTop.z = s.z := rfl
@[simp] theorem State.dropTop_ie (s : State) : s.dropTop.ie = s.ie := rfl
@[simp] theorem State.dropTop_mem (s : State) : s.dropTop.mem = s.mem := rfl
@[simp] theorem State.dropTop_strictDstMode0 (s : State) : s.dropTop.strictDstMode0 = s.strictDstMode0 := rfl
@[simp] theorem State.dropTop_popVariant (s : State) : s.dropTop.popVariant = s.popVariant := rfl

/-! ### push -/

@[simp] theorem State.push_regs (s : State) (v : Word) : (s.push v).regs = s.regs.set spReg (s.sp - 1) := rfl
@[simp] theorem State.push_pc (s : State) (v : Word) : (s.push v).pc = s.pc := rfl
@[simp] theorem State.push_c (s : State) (v : Word) : (s.push v).c = s.c := rfl
@[simp] theorem State.push_z (s : State) (v : Word) : (s.push v).z = s.z := rfl
@[simp] theorem State.push_ie (s : State) (v : Word) : (s.push v).ie = s.ie := rfl
@[simp] theorem State.push_mem (s : State) (v : Word) : (s.push v).mem = s.mem.writeWord (s.sp - 1) v := rfl
@[simp] theorem State.push_strictDstMode0 (s : State) (v : Word) : (s.push v).strictDstMode0 = s.strictDstMode0 := rfl
@[simp] theorem State.push_popVariant (s : State) (v : Word) : (s.push v).popVariant = s.popVariant := rfl

/-! ### placeAtPc -/

@[simp] theorem State.placeAtPc_regs (s : State) (ws : List Word) : (s.placeAtPc ws).regs = s.regs := rfl
@[simp] theorem State.placeAtPc_pc (s : State) (ws : List Word) : (s.placeAtPc ws).pc = s.pc := rfl
@[simp] theorem State.placeAtPc_c (s : State) (ws : List Word) : (s.placeAtPc ws).c = s.c := rfl
@[simp] theorem State.placeAtPc_z (s : State) (ws : List Word) : (s.placeAtPc ws).z = s.z := rfl
@[simp] theorem State.placeAtPc_ie (s : State) (ws : List Word) : (s.placeAtPc ws).ie = s.ie := rfl
@[simp] theorem State.placeAtPc_mem (s : State) (ws : List Word) : (s.placeAtPc ws).mem = s.mem.writeWords s.pc ws := rfl
@[simp] theorem State.placeAtPc_strictDstMode0 (s : State) (ws : List Word) : (s.placeAtPc ws).strictDstMode0 = s.strictDstMode0 := rfl
@[simp] theorem State.placeAtPc_popVariant (s : State) (ws : List Word) : (s.placeAtPc ws).popVariant = s.popVariant := rfl
@[simp] theorem State.placeAtPc_reg (s : State) (ws : List Word) (q : RegNo) : (s.placeAtPc ws).reg q = s.reg q := rfl

/-! ### Reading a register after a write -/

theorem State.setReg_reg (s : State) (r q : RegNo) (v : Word) :
    (s.setReg r v).reg q = if q = r then v else s.reg q := by
  simp only [State.reg, State.setReg, Fin.getElem_fin, Vector.getElem_set, Fin.ext_iff, eq_comm]

@[simp] theorem State.setReg_reg_self (s : State) (r : RegNo) (v : Word) :
    (s.setReg r v).reg r = v := by simp [State.setReg_reg]

theorem State.setReg_reg_ne (s : State) (r q : RegNo) (v : Word) (h : q ≠ r) :
    (s.setReg r v).reg q = s.reg q := by simp [State.setReg_reg, h]

theorem State.setSp_reg (s : State) (v : Word) (q : RegNo) :
    (s.setSp v).reg q = if q = spReg then v else s.reg q := State.setReg_reg s spReg q v

theorem State.dropTop_reg (s : State) (q : RegNo) :
    s.dropTop.reg q = if q = spReg then s.sp + 1 else s.reg q := State.setReg_reg s spReg q _

theorem State.push_reg (s : State) (v : Word) (q : RegNo) :
    (s.push v).reg q = if q = spReg then s.sp - 1 else s.reg q := State.setReg_reg s spReg q _

@[simp] theorem State.dropTop_sp (s : State) : s.dropTop.sp = s.sp + 1 := State.setReg_reg_self s spReg _

@[simp] theorem State.push_sp (s : State) (v : Word) : (s.push v).sp = s.sp - 1 :=
  State.setReg_reg_self s spReg _

/-! ### After reset -/

@[simp] theorem State.construct_reg (i : Byte) (k : Fin 18) (d : Bool) (p : PopVariant) (r : RegNo) :
    (State.construct i k d p).reg r = 0 := by
  simp [State.construct, State.reg]

end Sys2Proof.Machine
end

