-- ==== Sys2Proof/Laws/Operands.lean ====
section
/-! SUPPORT. What the shared operations can do: a write of a location, the read-modify-write of a
destination, the check of destination mode 0, and what one instruction can do to memory. -/

namespace Sys2Proof.Machine

/-! ### Frames -/

theorem BytesKept.refl (ws : List Word) (s : State) : BytesKept ws s s := fun _ _ => rfl

/-- A state that differs in `pc`, `C` and `Z` only meets every frame. -/
theorem Frame.of_eq {rs : List RegNo} {ws : List Word} {s t : State} (hr : t.regs = s.regs)
    (hm : t.mem = s.mem) (hi : t.ie = s.ie) (hd : t.strictDstMode0 = s.strictDstMode0)
    (hp : t.popVariant = s.popVariant) : Frame rs ws s t :=
  ⟨fun r _ => by rw [State.reg, State.reg, hr], fun b _ => by rw [hm], hi,
    ⟨hd, hp, by rw [hm], by rw [hm]⟩, fun _ => by rw [hm]⟩

/-- Changing `pc`, `C` and `Z` after a framed change keeps the frame. -/
theorem Frame.congr {rs : List RegNo} {ws : List Word} {s t u : State} (h : Frame rs ws s t)
    (hr : u.regs = t.regs) (hm : u.mem = t.mem) (hi : u.ie = t.ie)
    (hd : u.strictDstMode0 = t.strictDstMode0) (hp : u.popVariant = t.popVariant) :
    Frame rs ws s u := by
  obtain ⟨h1, h2, h3, ⟨h4, h5, h6, h7⟩, h8⟩ := h
  refine ⟨fun r hr' => ?_, fun b hb => ?_, hi.trans h3, ⟨hd.trans h4, hp.trans h5, ?_, ?_⟩,
    fun hw => ?_⟩
  · rw [State.reg, hr]; exact h1 r hr'
  · rw [hm]; exact h2 b hb
  · rw [hm]; exact h6
  · rw [hm]; exact h7
  · rw [hm]; exact h8 hw

/-- Writing a register changes that register only. -/
theorem State.setReg_frame (s : State) (r : RegNo) (v : Word) : Frame [r] [] s (s.setReg r v) :=
  ⟨fun q hq => State.setReg_reg_ne s r q v (by simpa using hq), fun _ _ => rfl, rfl,
    ⟨rfl, rfl, rfl, rfl⟩, fun _ => rfl⟩

/-- Writing a word changes the two bytes of that word only. -/
theorem State.writeWord_frame (s : State) (a v : Word) : Frame [] [a] s (s.writeWord a v) :=
  ⟨fun _ _ => rfl,
    fun b hb => Memory.byteRead_writeWord_of_ne _ _ (hb a (by simp)).1 (hb a (by simp)).2, rfl,
    ⟨rfl, rfl, rfl, rfl⟩, fun h => by simp at h⟩

/-- A push changes `r7` and the word at the new `r7` only. -/
theorem State.push_frame (s : State) (v : Word) : Frame [spReg] [s.sp - 1] s (s.push v) :=
  ⟨fun q hq => by simp_all [State.push_reg],
    fun b hb => Memory.byteRead_writeWord_of_ne _ _ (hb _ (by simp)).1 (hb _ (by simp)).2, rfl,
    ⟨rfl, rfl, rfl, rfl⟩, fun h => by simp at h⟩

/-! ### Locations -/

theorem State.writeLoc_frame (s : State) (loc : Location) (v : Word) :
    Frame loc.regs loc.words s (s.writeLoc loc v) := by
  cases loc with
  | reg r => exact s.setReg_frame r v
  | mem a => exact s.writeWord_frame a v

theorem State.readLoc_writeLoc_self {s : State} (h : s.mem.wf) (loc : Location) (v : Word) :
    (s.writeLoc loc v).readLoc loc = v := by
  cases loc with
  | reg r => exact s.setReg_reg_self r v
  | mem a => exact Memory.readWord_writeWord_self h a v

@[simp] theorem State.writeLoc_pc (s : State) (loc : Location) (v : Word) :
    (s.writeLoc loc v).pc = s.pc := by cases loc <;> rfl

@[simp] theorem State.writeLoc_c (s : State) (loc : Location) (v : Word) :
    (s.writeLoc loc v).c = s.c := by cases loc <;> rfl

@[simp] theorem State.writeLoc_z (s : State) (loc : Location) (v : Word) :
    (s.writeLoc loc v).z = s.z := by cases loc <;> rfl

@[simp] theorem State.writeLoc_ie (s : State) (loc : Location) (v : Word) :
    (s.writeLoc loc v).ie = s.ie := by cases loc <;> rfl

@[simp] theorem State.advance_readLoc (s : State) (n : Nat) (loc : Location) :
    (s.advance n).readLoc loc = s.readLoc loc := by cases loc <;> rfl

@[simp] theorem State.writeFlags_readLoc (s : State) (u : Update) (loc : Location) :
    (s.writeFlags u).readLoc loc = s.readLoc loc := by cases loc <;> rfl

/-! ### The read-modify-write of a destination -/

theorem State.destLocation_eq_none_iff (s : State) (dst : Operand) :
    s.destLocation dst = none ↔ dst.mode = 0 := by
  cases dst <;> simp [State.destLocation, Operand.mode]

/-- `ApplyDest` writes the new value to the location, and the flags of the update, and nothing else. -/
theorem State.applyDest_of_some {s : State} {dst : Operand} {loc : Location} (f : Word → Update)
    (h : s.destLocation dst = some loc) :
    s.applyDest dst f =
      (s.writeLoc loc (f (s.readLoc loc)).value).writeFlags (f (s.readLoc loc)) := by
  simp [State.applyDest, h]

/-- `ApplyDest` does nothing for mode 0. -/
theorem State.applyDest_of_none {s : State} {dst : Operand} (f : Word → Update)
    (h : s.destLocation dst = none) : s.applyDest dst f = s := by
  simp [State.applyDest, h]

/-- The check lets `next` through exactly when it does not fault. -/
theorem State.checkDest_cases {s t : State} {dst : Operand} {next : State}
    (h : s.checkDest dst next = .next t) : t = next ∧ ¬ (s.strictDstMode0 = true ∧ dst.mode = 0) := by
  unfold State.checkDest State.strict at h
  split at h
  · simp at h
  · exact ⟨(Host.Outcome.next.inj h).symm, by assumption⟩

theorem State.checkDest_fault_iff {s : State} {dst : Operand} {next : State} {f : Fault} :
    s.checkDest dst next = .fault f ↔
      s.strictDstMode0 = true ∧ dst.mode = 0 ∧
        f = .invalidDestinationMode s.pc (s.mem.readWord s.pc) := by
  unfold State.checkDest State.strict State.readWord
  split
  · rename_i h
    exact ⟨fun e => ⟨h.1, h.2, (Host.Outcome.fault.inj e).symm⟩, fun e => by rw [e.2.2]⟩
  · rename_i h
    exact ⟨fun e => by simp at e, fun e => absurd ⟨e.1, e.2.1⟩ h⟩

theorem State.checkDest_ne_refused {s : State} {dst : Operand} {next : State} {q : Refusal} :
    s.checkDest dst next ≠ .refused q := by
  unfold State.checkDest
  split <;> simp

/-! ### What one instruction does to memory -/

/-- Memory is as it was, or one word of it was written. -/
def WritesAtMostOneWord (s t : State) : Prop :=
  t.mem = s.mem ∨ ∃ a v, t.mem = s.mem.writeWord a v

theorem State.writeLoc_mem (s : State) (loc : Location) (v : Word) :
    WritesAtMostOneWord s (s.writeLoc loc v) := by
  cases loc with
  | reg r => exact .inl rfl
  | mem a => exact .inr ⟨a, v, rfl⟩

theorem State.applyDest_mem (s : State) (dst : Operand) (f : Word → Update) :
    WritesAtMostOneWord s (s.applyDest dst f) := by
  unfold State.applyDest
  split
  · exact .inl rfl
  · exact State.writeLoc_mem s _ _

theorem State.popInto_mem (s : State) (dst : Operand) : WritesAtMostOneWord s (s.popInto dst) := by
  have hA : WritesAtMostOneWord s (s.popThenIncrement dst) := s.applyDest_mem dst _
  unfold State.popInto
  split
  · unfold State.popInOrder
    split
    · exact hA
    · unfold State.popWithinUpdate
      split
      · exact .inl rfl
      · exact State.writeLoc_mem s.dropTop _ _
    · exact s.dropTop.applyDest_mem dst _
  · exact hA

/-- An instruction that completes writes at most one word of memory. -/
theorem exec_writesAtMostOneWord {i : Instr} {s t : State} (h : exec i s = .next t) :
    WritesAtMostOneWord s t := by
  have sd : ∀ (f : Word → Word → Update) (src dst : Operand),
      s.applySD f src dst = .next t → WritesAtMostOneWord s t := fun f src dst h => by
    rw [(State.checkDest_cases h).1]; exact s.applyDest_mem dst _
  have d : ∀ (f : Word → Update) (dst : Operand),
      s.applyD f dst = .next t → WritesAtMostOneWord s t := fun f dst h => by
    rw [(State.checkDest_cases h).1]; exact s.applyDest_mem dst _
  have j : ∀ (cond : Bool) (src : Operand),
      s.jumpIf cond src = .next t → WritesAtMostOneWord s t := fun cond src h => by
    rw [← Host.Outcome.next.inj h]; split <;> exact .inl rfl
  cases i with
  | copy src dst => exact sd _ src dst h
  | add src dst => exact sd _ src dst h
  | sub src dst => exact sd _ src dst h
  | and src dst => exact sd _ src dst h
  | or src dst => exact sd _ src dst h
  | xor src dst => exact sd _ src dst h
  | inc dst => exact d _ dst h
  | dec dst => exact d _ dst h
  | shl dst => exact d _ dst h
  | shr dst => exact d _ dst h
  | rtl dst => exact d _ dst h
  | rtr dst => exact d _ dst h
  | call src => rw [← Host.Outcome.next.inj h]; exact .inr ⟨_, _, rfl⟩
  | push src => rw [← Host.Outcome.next.inj h]; exact .inr ⟨_, _, rfl⟩
  | pop dst => rw [(State.checkDest_cases h).1]; exact s.popInto_mem dst
  | jz src => exact j _ src h
  | jnz src => exact j _ src h
  | jc src => exact j _ src h
  | jnc src => exact j _ src h
  | cmp src dst => rw [← Host.Outcome.next.inj h]; exact .inl rfl
  | ret => rw [← Host.Outcome.next.inj h]; exact .inl rfl
  | reti => rw [← Host.Outcome.next.inj h]; exact .inl rfl
  | jmp src => rw [← Host.Outcome.next.inj h]; exact .inl rfl
  | stc => rw [← Host.Outcome.next.inj h]; exact .inl rfl
  | clc => rw [← Host.Outcome.next.inj h]; exact .inl rfl
  | ei => rw [← Host.Outcome.next.inj h]; exact .inl rfl
  | di => rw [← Host.Outcome.next.inj h]; exact .inl rfl
  | halt => rw [← Host.Outcome.next.inj h]; exact .inl rfl
  | unrecognised0 => rw [← Host.Outcome.next.inj h]; exact .inl rfl
  | unrecognised29 => rw [← Host.Outcome.next.inj h]; exact .inl rfl
  | unrecognised30 => rw [← Host.Outcome.next.inj h]; exact .inl rfl
  | unrecognised31 => rw [← Host.Outcome.next.inj h]; exact .inl rfl

/-! ### `pop`: the order matters only where the spec says -/

/-- For every destination but `r7`, `[r7]` and mode 0, the three orders of `pop` give one state
(44_control_stack.md R193). -/
theorem State.popInOrder_eq_of_not_matters (s : State) (v : PopVariant) {dst : Operand}
    (h : popOrderMatters dst = false) : s.popInOrder v dst = s.popThenIncrement dst := by
  cases dst with
  | imm n => simp [popOrderMatters] at h
  | reg r =>
    have hr : (r : Nat) ≠ (spReg : Nat) := by
      simpa [popOrderMatters, Fin.ext_iff] using h
    have hsp : (s.setReg r s.top).sp = s.sp := by
      rw [State.sp, State.setReg_reg_ne _ _ _ _ (fun e => hr (congrArg Fin.val e).symm)]; rfl
    have hc : (s.regs.set r s.top).set spReg (s.sp + 1) = (s.regs.set spReg (s.sp + 1)).set r s.top :=
      Vector.set_comm _ _ hr
    have e1 : s.popThenIncrement (.reg r) = (s.setReg r s.top).setSp (s.sp + 1) := by
      rw [← hsp]; rfl
    have e2 : (s.setReg r s.top).setSp (s.sp + 1) = (s.setSp (s.sp + 1)).setReg r s.top := by
      simp only [State.setSp, State.setReg]
      exact congrArg (fun g => { s with regs := g }) hc
    cases v with
    | variantA => rfl
    | variantB => rw [e1, e2]; rfl
    | variantC => rw [e1, e2]; rfl
  | abs a => cases v <;> rfl
  | ind r =>
    have hr : r ≠ spReg := by simpa [popOrderMatters] using h
    have hreg : s.dropTop.reg r = s.reg r := by rw [State.dropTop_reg, if_neg hr]
    cases v with
    | variantA => rfl
    | variantB => rfl
    | variantC =>
      have : s.dropTop.destLocation (.ind r) = some (.mem (s.reg r)) := by
        rw [State.destLocation, hreg]
      show s.dropTop.applyDest (.ind r) (copyUpdate s.top) = _
      rw [State.applyDest_of_some _ this]
      rfl

/-- `pop` runs in the machine's own order, whatever the destination (44_control_stack.md R193). -/
theorem State.popInto_eq (s : State) (dst : Operand) :
    s.popInto dst = s.popInOrder s.popVariant dst := by
  unfold State.popInto
  split
  · rfl
  · rename_i h
    exact (s.popInOrder_eq_of_not_matters _ (Bool.eq_false_iff.2 h)).symm

end Sys2Proof.Machine
end

