-- ==== Sys2Proof/Laws/PerInstr.lean ====
section
/-! SUPPORT. For each instruction: its encoding has the length that 30_encoding.md R77 gives it, one to
three words, and bit 15 of its instruction word is 0, as R71 asks of a generator. -/

namespace Sys2Proof.Laws.EncodedWords

/-- The encoding of `i` has `i.length` words, one to three, and the reserved bit of its first word is 0. -/
def Statement (i : Instr) : Prop :=
  (encode i).length = i.length ∧ 1 ≤ i.length ∧ i.length ≤ 3 ∧
    ((encode i).headD 0).getLsbD 15 = false

theorem instrWord_bit15 (op : BitVec 5) (sm : BitVec 2) (sr : RegNo) (dm : BitVec 2) (dr : RegNo) :
    (instrWord op sm sr dm dr).getLsbD 15 = false := by
  have := op.isLt; have := sm.isLt; have := sr.isLt; have := dm.isLt; have := dr.isLt
  rw [BitVec.getLsbD, Nat.testBit_lt_two_pow]
  rw [instrWord_toNat]
  omega

theorem sourceWords_length_le (o : Operand) : o.sourceWords.length ≤ 1 := by
  cases o <;> simp [Operand.sourceWords]

theorem destWords_length_le (o : Operand) : o.destWords.length ≤ 1 := by
  cases o <;> simp [Operand.destWords]

theorem of_sd (op : BitVec 5) (src dst : Operand) (i : Instr) (he : encode i = encodeSD op src dst)
    (hl : i.length = 1 + src.sourceWords.length + dst.destWords.length) : Statement i := by
  have := sourceWords_length_le src; have := destWords_length_le dst
  refine ⟨?_, by omega, by omega, ?_⟩
  · rw [he, hl, encodeSD, List.length_cons, List.length_append]; omega
  · rw [he]; exact instrWord_bit15 _ _ _ _ _

theorem of_ss (op : BitVec 5) (src dst : Operand) (i : Instr) (he : encode i = encodeSS op src dst)
    (hl : i.length = 1 + src.sourceWords.length + dst.sourceWords.length) : Statement i := by
  have := sourceWords_length_le src; have := sourceWords_length_le dst
  refine ⟨?_, by omega, by omega, ?_⟩
  · rw [he, hl, encodeSS, List.length_cons, List.length_append]; omega
  · rw [he]; exact instrWord_bit15 _ _ _ _ _

theorem of_d (op : BitVec 5) (dst : Operand) (i : Instr) (he : encode i = encodeD op dst)
    (hl : i.length = 1 + dst.destWords.length) : Statement i := by
  have := destWords_length_le dst
  refine ⟨?_, by omega, by omega, ?_⟩
  · rw [he, hl, encodeD, List.length_cons]; omega
  · rw [he]; exact instrWord_bit15 _ _ _ _ _

theorem of_s (op : BitVec 5) (src : Operand) (i : Instr) (he : encode i = encodeS op src)
    (hl : i.length = 1 + src.sourceWords.length) : Statement i := by
  have := sourceWords_length_le src
  refine ⟨?_, by omega, by omega, ?_⟩
  · rw [he, hl, encodeS, List.length_cons]; omega
  · rw [he]; exact instrWord_bit15 _ _ _ _ _

theorem of_n (op : BitVec 5) (i : Instr) (he : encode i = encodeN op) (hl : i.length = 1) :
    Statement i := by
  refine ⟨?_, by omega, by omega, ?_⟩
  · rw [he, hl]; rfl
  · rw [he]; exact instrWord_bit15 _ _ _ _ _

theorem unrecognised0 : Statement .unrecognised0 := of_n 0 _ rfl rfl
theorem copy (src dst : Operand) : Statement (.copy src dst) := of_sd 1 src dst _ rfl rfl
theorem add (src dst : Operand) : Statement (.add src dst) := of_sd 2 src dst _ rfl rfl
theorem sub (src dst : Operand) : Statement (.sub src dst) := of_sd 3 src dst _ rfl rfl
theorem cmp (src dst : Operand) : Statement (.cmp src dst) := of_ss 4 src dst _ rfl rfl
theorem and (src dst : Operand) : Statement (.and src dst) := of_sd 5 src dst _ rfl rfl
theorem or (src dst : Operand) : Statement (.or src dst) := of_sd 6 src dst _ rfl rfl
theorem xor (src dst : Operand) : Statement (.xor src dst) := of_sd 7 src dst _ rfl rfl
theorem inc (dst : Operand) : Statement (.inc dst) := of_d 8 dst _ rfl rfl
theorem dec (dst : Operand) : Statement (.dec dst) := of_d 9 dst _ rfl rfl
theorem shl (dst : Operand) : Statement (.shl dst) := of_d 10 dst _ rfl rfl
theorem shr (dst : Operand) : Statement (.shr dst) := of_d 11 dst _ rfl rfl
theorem rtl (dst : Operand) : Statement (.rtl dst) := of_d 12 dst _ rfl rfl
theorem rtr (dst : Operand) : Statement (.rtr dst) := of_d 13 dst _ rfl rfl
theorem call (src : Operand) : Statement (.call src) := of_s 14 src _ rfl rfl
theorem ret : Statement .ret := of_n 15 _ rfl rfl
theorem reti : Statement .reti := of_n 16 _ rfl rfl
theorem push (src : Operand) : Statement (.push src) := of_s 17 src _ rfl rfl
theorem pop (dst : Operand) : Statement (.pop dst) := of_d 18 dst _ rfl rfl
theorem jmp (src : Operand) : Statement (.jmp src) := of_s 19 src _ rfl rfl
theorem jz (src : Operand) : Statement (.jz src) := of_s 20 src _ rfl rfl
theorem jnz (src : Operand) : Statement (.jnz src) := of_s 21 src _ rfl rfl
theorem jc (src : Operand) : Statement (.jc src) := of_s 22 src _ rfl rfl
theorem jnc (src : Operand) : Statement (.jnc src) := of_s 23 src _ rfl rfl
theorem stc : Statement .stc := of_n 24 _ rfl rfl
theorem clc : Statement .clc := of_n 25 _ rfl rfl
theorem ei : Statement .ei := of_n 26 _ rfl rfl
theorem di : Statement .di := of_n 27 _ rfl rfl
theorem halt : Statement .halt := of_n 28 _ rfl rfl
theorem unrecognised29 : Statement .unrecognised29 := of_n 29 _ rfl rfl
theorem unrecognised30 : Statement .unrecognised30 := of_n 30 _ rfl rfl
theorem unrecognised31 : Statement .unrecognised31 := of_n 31 _ rfl rfl

end Sys2Proof.Laws.EncodedWords
end

