-- ==== Sys2Proof/Laws/Run.lean ====
section
/-! SUPPORT. A run of the machine, and the transactions STEP and RUN, unfolded by their first step. -/

namespace Sys2Proof.Machine

theorem core_run_succ_of_next (k : Nat) {s t : State} (h : step s = .next t) :
    Host.Core.run core (k + 1) s = Host.Core.run core k t := by
  have gen : ∀ (M : Host.Core) (a b : M.State), M.step a = .next b → M.run (k + 1) a = M.run k b :=
    fun M a b e => by simp [Host.Core.run, e]
  exact gen core s t h

theorem core_run_succ_of_fault (k : Nat) {s : State} {f : Fault} (h : step s = .fault f) :
    Host.Core.run core (k + 1) s = .fault f := by
  have gen : ∀ (M : Host.Core) (a : M.State) (b : M.Fault),
      M.step a = .fault b → M.run (k + 1) a = .fault b := fun M a b e => by simp [Host.Core.run, e]
  exact gen core s f h

theorem core_run_succ_of_refused (k : Nat) {s : State} {q : Refusal} (h : step s = .refused q) :
    Host.Core.run core (k + 1) s = .refused q := by
  have gen : ∀ (M : Host.Core) (a : M.State) (b : M.Refusal),
      M.step a = .refused b → M.run (k + 1) a = .refused b := fun M a b e => by simp [Host.Core.run, e]
  exact gen core s q h

/-! ### STEP and RUN -/

@[simp] theorem transact_step (s : State) : transact .step s = stepReply s := rfl

@[simp] theorem transact_run (fuel : Nat) (s : State) : transact (.run fuel) s = runReply fuel s := rfl

theorem stepReply_of_next {s t : State} (h : step s = .next t) :
    stepReply s = .next (t, .status (stepStatus s)) := by rw [stepReply, h]

theorem stepReply_of_fault {s : State} {f : Fault} (h : step s = .fault f) : stepReply s = .fault f := by
  rw [stepReply, h]

theorem stepReply_of_refused {s : State} {q : Refusal} (h : step s = .refused q) :
    stepReply s = .refused q := by rw [stepReply, h]

theorem runReply_succ_of_halted (fuel : Nat) {s t : State} (h : step s = .next t)
    (hs : stepStatus s = .halted) : runReply (fuel + 1) s = .next (t, .status .halted) := by
  simp [runReply, h, hs]

theorem runReply_succ_of_continuing (fuel : Nat) {s t : State} (h : step s = .next t)
    (hs : stepStatus s ≠ .halted) : runReply (fuel + 1) s = runReply fuel t := by
  simp [runReply, h, hs]

theorem runReply_succ_of_fault (fuel : Nat) {s : State} {f : Fault} (h : step s = .fault f) :
    runReply (fuel + 1) s = .fault f := by simp [runReply, h]

theorem runReply_succ_of_refused (fuel : Nat) {s : State} {q : Refusal} (h : step s = .refused q) :
    runReply (fuel + 1) s = .refused q := by simp [runReply, h]

end Sys2Proof.Machine
end

