-- ==== Sys2Proof/Tests/Slice0.lean ====
section
/-! SUPPORT. Tests: ill-formed terms refused, words of the spec decoded, the spec's vectors run for one step
each, and for every statement with hypotheses a state and operands that meet them all. Expected results are
the spec's (95_test_vectors.md), but for the witnesses, which only meet hypotheses. -/

namespace Sys2Proof.Tests
open Sys2Proof.Machine

/-! ### Helpers -/

/-- The registers of `s` with those of `rs` written. -/
def setRegs (s : State) (rs : List (RegNo × Word)) : State :=
  rs.foldl (fun t p => t.setReg p.1 p.2) s

/-- The memory `m` with the words of `ws` written. -/
def setWords (m : Memory) (ws : List (Word × Word)) : Memory :=
  ws.foldl (fun t p => t.writeWord p.1 p.2) m

/-- The start state of a vector of 95_test_vectors.md: reset, with `POP_VARIANT` A, then `pc`, the words at
`pc`, and the registers and memory words that differ. -/
def start (pc : Word) (words : List Word) (regs : List (RegNo × Word)) (mem : List (Word × Word)) :
    State :=
  let s := (setRegs (State.construct 0x00 17 false .variantA) regs).jump pc
  { s with mem := setWords (s.mem.writeWords pc words) mem }

/-- The state under another `POP_VARIANT`. -/
def withVariant (s : State) (v : PopVariant) : State := { s with popVariant := v }

/-- The state under strict mode. -/
def strict (s : State) : State := { s with strictDstMode0 := true }

/-- A STEP from `s` returns `status`, with `pc` and the flags as given, and with no register or memory word
changed but those given. -/
def endsWith (s : State) (status : Status) (pc : Word) (c z ie : Bool) (regs : List (RegNo × Word))
    (mem : List (Word × Word)) : Bool :=
  match transact .step s with
  | .next (t, r) =>
    r == .status status && t.pc == pc && t.c == c && t.z == z && t.ie == ie &&
      t.regs == (setRegs s regs).regs && t.mem == setWords s.mem mem
  | _ => false

/-- A STEP from `s` faults with `f`. -/
def faultsWith (s : State) (f : Fault) : Bool :=
  match transact .step s with
  | .fault g => g == f
  | _ => false

/-- The state a step from `s` gives, where it gives one. -/
def after (s : State) : State :=
  match step s with
  | .next t => t
  | _ => s

/-! ### Well-formedness: a destination of mode 0 holds no value (30_encoding.md R81) -/

theorem test_ill_formed_destinations : ∀ i ∈ [Instr.copy (.reg 1) (.imm 5), .add (.reg 1) (.imm 5),
    .sub (.reg 1) (.imm 5), .and (.reg 1) (.imm 5), .or (.reg 1) (.imm 5), .xor (.reg 1) (.imm 5),
    .inc (.imm 5), .dec (.imm 5), .shl (.imm 5), .shr (.imm 5), .rtl (.imm 5), .rtr (.imm 5),
    .pop (.imm 5)], i.wellFormed = false := by decide

theorem test_cmp_may_compare_with_an_immediate : (Instr.cmp (.imm 5) (.imm 4)).wellFormed = true := by
  decide

/-! ### Decoding

Words of 95_test_vectors.md, one for every constructor, and one word of each operand class bit by bit:
`opcode || src_mode || src_reg || dst_mode || dst_reg` after bit 15 (30_encoding.md R70). -/

theorem test_decode_unrecognised0 : decode 0x0000 0 0 = .unrecognised0 := by decide
theorem test_decode_copy : decode 0x0410 0x5555 0x0300 = .copy (.imm 0x5555) (.abs 0x0300) := by decide
theorem test_decode_add : decode 0x0B4A 0 0 = .add (.ind 2) (.reg 2) := by decide
theorem test_decode_sub : decode 0x0D28 0 0 = .sub (.reg 1) (.reg 0) := by decide
theorem test_decode_cmp : decode 0x1370 0x0200 0 = .cmp (.ind 3) (.abs 0x0200) := by decide
theorem test_decode_and : decode 0x1409 0x0F0F 0 = .and (.imm 0x0F0F) (.reg 1) := by decide
theorem test_decode_or : decode 0x1949 0 0 = .or (.reg 2) (.reg 1) := by decide
theorem test_decode_xor : decode 0x1C10 0xFFFF 0x0200 = .xor (.imm 0xFFFF) (.abs 0x0200) := by decide
theorem test_decode_inc : decode 0x2010 0x0200 0 = .inc (.abs 0x0200) := by decide
theorem test_decode_dec : decode 0x240B 0 0 = .dec (.reg 3) := by decide
theorem test_decode_shl : decode 0x2819 0 0 = .shl (.ind 1) := by decide
theorem test_decode_shr : decode 0x2C09 0 0 = .shr (.reg 1) := by decide
theorem test_decode_rtl : decode 0x3008 0 0 = .rtl (.reg 0) := by decide
theorem test_decode_rtr : decode 0x3408 0 0 = .rtr (.reg 0) := by decide
theorem test_decode_call : decode 0x3A00 0x0300 0 = .call (.abs 0x0300) := by decide
theorem test_decode_ret : decode 0x3F1B 0 0 = .ret := by decide
theorem test_decode_reti : decode 0x4000 0 0 = .reti := by decide
theorem test_decode_push : decode 0x47E0 0 0 = .push (.ind 7) := by decide
theorem test_decode_pop : decode 0x481F 0 0 = .pop (.ind 7) := by decide
theorem test_decode_jmp : decode 0x4F40 0 0 = .jmp (.ind 2) := by decide
theorem test_decode_jz : decode 0x5140 0 0 = .jz (.reg 2) := by decide
theorem test_decode_jnz : decode 0x5400 0x0200 0 = .jnz (.imm 0x0200) := by decide
theorem test_decode_jc : decode 0x5B40 0 0 = .jc (.ind 2) := by decide
theorem test_decode_jnc : decode 0x5C00 0x0200 0 = .jnc (.imm 0x0200) := by decide
theorem test_decode_stc : decode 0x6000 0 0 = .stc := by decide
theorem test_decode_clc : decode 0x6400 0 0 = .clc := by decide
theorem test_decode_ei : decode 0x6800 0 0 = .ei := by decide
theorem test_decode_di : decode 0x6C00 0 0 = .di := by decide
theorem test_decode_halt : decode 0xF000 0 0 = .halt := by decide
theorem test_decode_unrecognised29 : decode 0x7400 0 0 = .unrecognised29 := by decide
theorem test_decode_unrecognised30 : decode 0x7800 0 0 = .unrecognised30 := by decide
theorem test_decode_unrecognised31 : decode 0x7FFF 0x1111 0x2222 = .unrecognised31 := by decide

/-- Opcode 5, `and`, source mode 3 and register 6, destination mode 2 with its address the first word. -/
theorem test_decode_bits_sd : decode 0b0001011111010111 0x1234 0x5678 = .and (.ind 6) (.abs 0x1234) := by
  decide

/-- Opcode 4, `cmp`, source mode 2, destination mode 0, both with an extension word, the source's first. -/
theorem test_decode_bits_ss : decode 0b1001001000000101 0x1234 0x5678 = .cmp (.abs 0x1234) (.imm 0x5678) := by
  decide

/-- Opcode 13, `rtr`, destination mode 1 and register 5; the source fields, all 1, are not decoded. -/
theorem test_decode_bits_d : decode 0b0011011111101101 0x1234 0x5678 = .rtr (.reg 5) := by decide

/-- Opcode 17, `push`, source mode 2; the register fields and the destination mode are not decoded. -/
theorem test_decode_bits_s : decode 0b0100011011111111 0x1234 0x5678 = .push (.abs 0x1234) := by decide

/-- Opcode 27, `di`; no other field is decoded. -/
theorem test_decode_bits_n : decode 0b0110111001010101 0x1234 0x5678 = .di := by decide

/-- The words of 95_test_vectors.md V3 and V4, encoded. -/
theorem test_encode : encode (.add (.imm 0x0005) (.abs 0x0200)) = [0x0810, 0x0005, 0x0200] ∧
    encode (.cmp (.imm 0x0005) (.imm 0x0004)) = [0x1000, 0x0005, 0x0004] := by decide

/-- The word order of 30_encoding.md R74 in the host's numbering, and operand words it gives no bits. -/
theorem test_decode_table_word :
    decodeTableWord 48 0x020000050810 = some (.add (.imm 0x0005) (.abs 0x0200)) ∧
    decodeTableWord 16 0x0810 = some (.add (.imm 0) (.abs 0)) := by decide

theorem test_truncated_bytes_rejected :
    decodeBytes [0x08] = .error .truncated ∧
    decodeBytes [0x08, 0x10, 0x00, 0x05, 0x02] = .error .truncated := ⟨rfl, rfl⟩

/-! ### One step of each instruction, on the vectors of 95_test_vectors.md -/

/-- 95_test_vectors.md V34. -/
theorem test_copy_overwrites_its_own_address_word :
    endsWith (start 0x0100 [0x0410, 0x9999, 0x0102] [] [])
      .continuing 0x0103 false false false []
      [(0x0102, 0x9999)] = true := by decide

/-- 95_test_vectors.md V40. -/
theorem test_copy_writes_no_flag :
    endsWith ((start 0x0100 [0x040B, 0x0000] [(3, 0x1234)] []).setC true)
      .continuing 0x0102 true false false [(3, 0x0000)]
      [] = true := by decide

/-- 95_test_vectors.md V41. -/
theorem test_add_wraps :
    endsWith (start 0x0100 [0x0808, 0x0001] [(0, 0xFFFF)] [])
      .continuing 0x0102 true true false [(0, 0x0000)]
      [] = true := by decide

/-- 95_test_vectors.md V27. -/
theorem test_add_mode0_writes_no_flag :
    endsWith ((start 0x0100 [0x0800, 0xFFFF] [] []).setC true)
      .continuing 0x0102 true false false []
      [] = true := by decide

/-- 95_test_vectors.md V47. -/
theorem test_sub_with_borrow_in_wraps_to_zero :
    endsWith ((start 0x0100 [0x0D28] [(0, 0x0000), (1, 0xFFFF)] []).setC true)
      .continuing 0x0101 true true false [(0, 0x0000), (1, 0xFFFF)]
      [] = true := by decide

/-- 95_test_vectors.md V46. -/
theorem test_sub_from_itself_with_carry :
    endsWith ((start 0x0100 [0x0D29] [(1, 0x1234)] []).setC true)
      .continuing 0x0101 true false false [(1, 0xFFFF)]
      [] = true := by decide

/-- 95_test_vectors.md V50. -/
theorem test_cmp_sets_c_where_destination_is_below :
    endsWith (start 0x0100 [0x1149] [(1, 0x0003), (2, 0x0007)] [])
      .continuing 0x0101 true false false [(1, 0x0003), (2, 0x0007)]
      [] = true := by decide

/-- 95_test_vectors.md V53. -/
theorem test_cmp_is_unsigned :
    endsWith (start 0x0100 [0x1009, 0x0000] [(1, 0xFFFF)] [])
      .continuing 0x0102 false false false [(1, 0xFFFF)]
      [] = true := by decide

/-- 95_test_vectors.md V60. -/
theorem test_and_keeps_c :
    endsWith ((start 0x0100 [0x1409, 0x0F0F] [(1, 0x1234)] []).setC true)
      .continuing 0x0102 true false false [(1, 0x0204)]
      [] = true := by decide

/-- 95_test_vectors.md V63. -/
theorem test_or_zero_sets_z :
    endsWith ((start 0x0100 [0x1809, 0x0000] [(1, 0x0000)] []).setC true)
      .continuing 0x0102 true true false [(1, 0x0000)]
      [] = true := by decide

/-- 95_test_vectors.md V65. -/
theorem test_xor_in_memory :
    endsWith (start 0x0100 [0x1C10, 0xFFFF, 0x0200] [] [(0x0200, 0x00FF)])
      .continuing 0x0103 false false false []
      [(0x0200, 0xFF00)] = true := by decide

/-- 95_test_vectors.md V64. -/
theorem test_xor_with_itself_sets_z :
    endsWith (start 0x0100 [0x1D29] [(1, 0xA5A5)] [])
      .continuing 0x0101 false true false [(1, 0x0000)]
      [] = true := by decide

/-- 95_test_vectors.md V66. -/
theorem test_inc_wraps_and_keeps_c :
    endsWith (start 0x0100 [0x200B] [(3, 0xFFFF)] [])
      .continuing 0x0101 false true false [(3, 0x0000)]
      [] = true := by decide

/-- 95_test_vectors.md V69. -/
theorem test_dec_wraps_and_keeps_c :
    endsWith (start 0x0100 [0x240B] [(3, 0x0000)] [])
      .continuing 0x0101 false false false [(3, 0xFFFF)]
      [] = true := by decide

/-- 95_test_vectors.md V68. -/
theorem test_dec_to_zero_keeps_set_c :
    endsWith ((start 0x0100 [0x240B] [(3, 0x0001)] []).setC true)
      .continuing 0x0101 true true false [(3, 0x0000)]
      [] = true := by decide

/-- 95_test_vectors.md V82. -/
theorem test_shl_does_not_shift_c_in :
    endsWith ((start 0x0100 [0x2808] [(0, 0x4000)] []).setC true)
      .continuing 0x0101 false false false [(0, 0x8000)]
      [] = true := by decide

/-- 95_test_vectors.md V94. -/
theorem test_shl_through_register :
    endsWith (start 0x0100 [0x2819] [(1, 0x0200)] [(0x0200, 0x00FF)])
      .continuing 0x0101 false false false [(1, 0x0200)]
      [(0x0200, 0x01FE)] = true := by decide

/-- 95_test_vectors.md V84. -/
theorem test_shr_is_logical :
    endsWith ((start 0x0100 [0x2C08] [(0, 0x8000)] []).setC true)
      .continuing 0x0101 false false false [(0, 0x4000)]
      [] = true := by decide

/-- 95_test_vectors.md V83. -/
theorem test_shr_sets_c :
    endsWith (start 0x0100 [0x2C08] [(0, 0x0003)] [])
      .continuing 0x0101 true false false [(0, 0x0001)]
      [] = true := by decide

/-- 95_test_vectors.md V87. -/
theorem test_rtl_of_top_bit :
    endsWith ((start 0x0100 [0x3008] [(0, 0x8000)] []).setC true)
      .continuing 0x0101 true false false [(0, 0x0001)]
      [] = true := by decide

/-- 95_test_vectors.md V88. -/
theorem test_rtl_does_not_shift_c_in :
    endsWith ((start 0x0100 [0x3008] [(0, 0x4000)] []).setC true)
      .continuing 0x0101 false false false [(0, 0x8000)]
      [] = true := by decide

/-- 95_test_vectors.md V91. -/
theorem test_rtr_of_low_bit :
    endsWith (start 0x0100 [0x3408] [(0, 0x0001)] [])
      .continuing 0x0101 true false false [(0, 0x8000)]
      [] = true := by decide

/-- 95_test_vectors.md V92. -/
theorem test_rtr_does_not_shift_c_in :
    endsWith ((start 0x0100 [0x3408] [(0, 0x0002)] []).setC true)
      .continuing 0x0101 false false false [(0, 0x0001)]
      [] = true := by decide

/-- 95_test_vectors.md V103. -/
theorem test_call_reads_target_through_old_sp :
    endsWith (start 0x0100 [0x3BE0] [(7, 0x1000)] [(0x1000, 0x0600)])
      .continuing 0x0600 false false false [(7, 0x0FFF)]
      [(0x0FFF, 0x0101)] = true := by decide

/-- 95_test_vectors.md V101. -/
theorem test_call_wraps_sp :
    endsWith (start 0x0100 [0x3940] [(2, 0x0400), (7, 0x0000)] [])
      .continuing 0x0400 false false false [(2, 0x0400), (7, 0xFFFF)]
      [(0xFFFF, 0x0101)] = true := by decide

/-- 95_test_vectors.md V6. -/
theorem test_ret_ignores_its_fields :
    endsWith (start 0x0100 [0x3F1B] [(7, 0x0FFF)] [(0x0FFF, 0x0400)])
      .continuing 0x0400 false false false [(7, 0x1000)]
      [] = true := by decide

/-- 95_test_vectors.md V105. -/
theorem test_ret_wraps_sp :
    endsWith (start 0x0100 [0x3C00] [(7, 0xFFFF)] [(0xFFFF, 0x0042)])
      .continuing 0x0042 false false false [(7, 0x0000)]
      [] = true := by decide

/-- 95_test_vectors.md V106. -/
theorem test_reti_pops_nothing :
    endsWith (start 0x0100 [0x4000] [(7, 0x0FFF)] [(0x0FFF, 0x0102)])
      .continuing 0x0101 false false false [(7, 0x0FFF)]
      [] = true := by decide

/-- 95_test_vectors.md V107. -/
theorem test_push_from_sp_zero_wraps :
    endsWith (start 0x0100 [0x4400, 0xABCD] [] [])
      .continuing 0x0102 false false false [(7, 0xFFFF)]
      [(0xFFFF, 0xABCD)] = true := by decide

/-- 95_test_vectors.md V109. -/
theorem test_push_reads_through_old_sp :
    endsWith (start 0x0100 [0x47E0] [(7, 0x1000)] [(0x1000, 0x7777)])
      .continuing 0x0101 false false false [(7, 0x0FFF)]
      [(0x0FFF, 0x7777)] = true := by decide

/-- 95_test_vectors.md V112A to V112C. -/
theorem test_pop_r7_by_variant :
    endsWith (start 0x0100 [0x480F] [(7, 0x1000)] [(0x1000, 0x3000)])
      .continuing 0x0101 false false false [(7, 0x3001)]
      [] = true ∧
    endsWith (withVariant (start 0x0100 [0x480F] [(7, 0x1000)] [(0x1000, 0x3000)]) .variantB)
      .continuing 0x0101 false false false [(7, 0x3000)]
      [] = true ∧
    endsWith (withVariant (start 0x0100 [0x480F] [(7, 0x1000)] [(0x1000, 0x3000)]) .variantC)
      .continuing 0x0101 false false false [(7, 0x3000)]
      [] = true := by decide

/-- 95_test_vectors.md V113A to V114C. -/
theorem test_pop_ind_r7_and_mode0_by_variant :
    endsWith (start 0x0100 [0x481F] [(7, 0x1000)] [(0x1000, 0x3000), (0x1001, 0x4000)])
      .continuing 0x0101 false false false [(7, 0x1001)]
      [(0x1000, 0x3000)] = true ∧
    endsWith (withVariant (start 0x0100 [0x481F] [(7, 0x1000)] [(0x1000, 0x3000),
        (0x1001, 0x4000)]) .variantB)
      .continuing 0x0101 false false false [(7, 0x1001)]
      [(0x1000, 0x3000)] = true ∧
    endsWith (withVariant (start 0x0100 [0x481F] [(7, 0x1000)] [(0x1000, 0x3000),
        (0x1001, 0x4000)]) .variantC)
      .continuing 0x0101 false false false [(7, 0x1001)]
      [(0x1001, 0x3000)] = true ∧
    endsWith (start 0x0100 [0x4800] [(7, 0x1000)] [(0x1000, 0x3000)])
      .continuing 0x0101 false false false [(7, 0x1001)]
      [] = true ∧
    endsWith (withVariant (start 0x0100 [0x4800] [(7, 0x1000)] [(0x1000, 0x3000)]) .variantB)
      .continuing 0x0101 false false false [(7, 0x1000)]
      [] = true ∧
    endsWith (withVariant (start 0x0100 [0x4800] [(7, 0x1000)] [(0x1000, 0x3000)]) .variantC)
      .continuing 0x0101 false false false [(7, 0x1001)]
      [] = true := by decide

/-- 95_test_vectors.md V117. -/
theorem test_jmp_to_word_in_memory :
    endsWith (start 0x0100 [0x4F40] [(2, 0x0300)] [(0x0300, 0x0456)])
      .continuing 0x0456 false false false [(2, 0x0300)]
      [] = true := by decide

/-- 95_test_vectors.md V11. -/
theorem test_jz_not_taken_wraps_pc :
    endsWith (start 0xFFFF [0x5000, 0x0200] [] [])
      .continuing 0x0001 false false false []
      [] = true := by decide

/-- 95_test_vectors.md V119. -/
theorem test_jz_taken :
    endsWith ((start 0x0100 [0x5000, 0x0200] [] []).setZ true)
      .continuing 0x0200 false true false []
      [] = true := by decide

/-- 95_test_vectors.md V121. -/
theorem test_jnz_taken :
    endsWith (start 0x0100 [0x5400, 0x0200] [] [])
      .continuing 0x0200 false false false []
      [] = true := by decide

/-- 95_test_vectors.md V122. -/
theorem test_jnz_not_taken :
    endsWith ((start 0x0100 [0x5400, 0x0200] [] []).setZ true)
      .continuing 0x0102 false true false []
      [] = true := by decide

/-- 95_test_vectors.md V128. -/
theorem test_jc_taken :
    endsWith ((start 0x0100 [0x5B40] [(2, 0x0300)] [(0x0300, 0x0999)]).setC true)
      .continuing 0x0999 true false false [(2, 0x0300)]
      [] = true := by decide

/-- 95_test_vectors.md V124. -/
theorem test_jc_not_taken :
    endsWith (start 0x0100 [0x5800, 0x0200] [] [])
      .continuing 0x0102 false false false []
      [] = true := by decide

/-- 95_test_vectors.md V125. -/
theorem test_jnc_taken :
    endsWith (start 0x0100 [0x5C00, 0x0200] [] [])
      .continuing 0x0200 false false false []
      [] = true := by decide

/-- 95_test_vectors.md V126. -/
theorem test_jnc_not_taken :
    endsWith ((start 0x0100 [0x5C00, 0x0200] [] []).setC true)
      .continuing 0x0102 true false false []
      [] = true := by decide

/-- 95_test_vectors.md V140. -/
theorem test_stc :
    endsWith (start 0x0100 [0x6000] [] [])
      .continuing 0x0101 true false false []
      [] = true := by decide

/-- 95_test_vectors.md V141. -/
theorem test_clc_keeps_z :
    endsWith (((start 0x0100 [0x6400] [] []).setC true).setZ true)
      .continuing 0x0101 false true false []
      [] = true := by decide

/-- 95_test_vectors.md V142. -/
theorem test_ei :
    endsWith (start 0x0100 [0x6800] [] [])
      .continuing 0x0101 false false true []
      [] = true := by decide

/-- 95_test_vectors.md V143. -/
theorem test_di :
    endsWith ((start 0x0100 [0x6C00] [] []).setIe true)
      .continuing 0x0101 false false false []
      [] = true := by decide

/-- 95_test_vectors.md V10. -/
theorem test_halt_consumes_no_extension_word :
    endsWith (start 0x0100 [0x7300, 0x1111] [] [])
      .halted 0x0101 false false false []
      [] = true := by decide

/-- 95_test_vectors.md V12. -/
theorem test_halt_wraps_pc :
    endsWith (start 0xFFFF [0x7000] [] [])
      .halted 0x0000 false false false []
      [] = true := by decide

/-- 95_test_vectors.md V148. -/
theorem test_unrecognised0_ignores_fields :
    endsWith (start 0x0100 [0x0300] [] [])
      .continuing 0x0101 false false false []
      [] = true := by decide

/-- 95_test_vectors.md V145. -/
theorem test_unrecognised29 :
    endsWith (((start 0x0100 [0x7400] [] []).setC true).setZ true)
      .continuing 0x0101 true true false []
      [] = true := by decide

/-- 95_test_vectors.md V146. -/
theorem test_unrecognised30 :
    endsWith (start 0x0100 [0x7800] [] [])
      .continuing 0x0101 false false false []
      [] = true := by decide

/-- 95_test_vectors.md V7. -/
theorem test_unrecognised31_ignores_fields :
    endsWith (start 0x0100 [0x7FFF] [] [])
      .continuing 0x0101 false false false []
      [] = true := by decide

/-- 95_test_vectors.md V29 and V30: the strict mode's fault. -/
theorem test_strict_mode_faults :
    faultsWith (strict (start 0x0100 [0x0800, 0xFFFF] [] [])) (.invalidDestinationMode 0x0100 0x0800) = true ∧
    faultsWith (strict (start 0x0100 [0x2000] [] [])) (.invalidDestinationMode 0x0100 0x2000) = true := by
  decide

/-- 95_test_vectors.md V149 and V150: a step over memory nothing has written. -/
theorem test_unwritten_memory_runs :
    endsWith (State.construct 0x70 17 false .variantA) .halted 0x0001 false false false [] [] = true ∧
    endsWith (State.construct 0x00 17 false .variantA) .continuing 0x0001 false false false [] [] = true := by
  decide

/-- The placed instruction is the first that runs after reset. -/
theorem test_with_fetch_word :
    stepStatus (State.reset.withFetchWord 16 0x7000) = .halted ∧
    (after (State.reset.withFetchWord 32 0x12340408)).reg 0 = 0x1234 := by decide

/-! ### Memory and the host's transactions, on the vectors of 95_test_vectors.md -/

/-- 95_test_vectors.md M0 to M6: the fragment list, with its bytes, after the writes of `INIT_BYTE` 0xAA
and `FRAGMENT_SIZE` 4. -/
theorem test_fragments_spliced_in_order :
    (((((((Memory.fresh 0xAA 2).byteWrite 0x00009 0x11).byteWrite 0x00002 0x22).byteWrite 0x0000A
      0x33).byteWrite 0x00064 0x44).byteWrite 0x00005 0x55).byteWrite 0x00004 0x66).fragmentList =
    [(0x00000, [0xAA, 0xAA, 0x22, 0xAA]), (0x00004, [0x66, 0x55, 0xAA, 0xAA]),
     (0x00008, [0xAA, 0x11, 0x33, 0xAA]), (0x00064, [0x44, 0xAA, 0xAA, 0xAA])] := by decide

/-- 95_test_vectors.md M7 to M10, after M1: bytes never written read `INIT_BYTE`. -/
theorem test_unwritten_bytes_read_init_byte :
    let m := (Memory.fresh 0xAA 2).byteWrite 0x00009 0x11
    m.byteRead 0x0000A = 0xAA ∧ m.byteRead 0x00032 = 0xAA ∧ m.byteRead 0x00009 = 0x11 ∧
    m.byteRead 0x1FFFF = 0xAA := by decide

/-- 95_test_vectors.md M11 and M12. -/
theorem test_word_write_allocates :
    ((Memory.fresh 0x00 0).writeWord 0x0003 0xBEEF).fragmentList =
      [(0x00006, [0xBE]), (0x00007, [0xEF])] ∧
    ((Memory.fresh 0x00 1).writeWord 0xFFFF 0x1234).fragmentList = [(0x1FFFE, [0x12, 0x34])] := by decide

/-- 95_test_vectors.md M13 and M14. -/
theorem test_words_and_their_bytes :
    let m := ((Memory.fresh 0x00 17).writeWord 0x8000 0xAAAA).writeWord 0x0000 0x5555
    m.readWord 0x8000 = 0xAAAA ∧ m.fragments = [0] ∧
    ((Memory.fresh 0x00 17).writeWord 0x0040 0x1234).byteRead 0x00080 = 0x12 ∧
    ((Memory.fresh 0x00 17).writeWord 0x0040 0x1234).byteRead 0x00081 = 0x34 := by decide

/-- 95_test_vectors.md M8 and M9, as the host's transactions, BYTE_WRITE before BYTE_READ. -/
theorem test_byte_transactions :
    (match transact (.byteWrite 0x00009 0x11) (State.construct 0xAA 2 false .variantA) with
      | .next (t, _) =>
        (match transact (.byteRead 0x00009) t, transact (.byteRead 0x00032) t with
          | .next (_, r), .next (_, q) => r == .byte 0x11 && q == .byte 0xAA
          | _, _ => false)
      | _ => false) = true := by decide

/-- Writing `INIT_BYTE` over a byte unlists it and keeps its fragment (20_memory.md R46). -/
theorem test_write_of_init_byte_keeps_the_fragment :
    let m := ((Memory.fresh 0xAA 2).byteWrite 0x00009 0x11).byteWrite 0x00009 0xAA
    m.cells = [] ∧ m.fragments = [8] := by decide

/-- 10_state.md R34: RUN from a state whose next instruction is `halt`, and with no step allowed. -/
theorem test_run_halts :
    (match transact (.run 2) (start 0x0100 [0x7000] [] []) with
      | .next (t, r) => r == .status .halted && t.pc == 0x0101
      | _ => false) = true ∧
    (match transact (.run 0) (start 0x0100 [0x7000] [] []) with
      | .next (t, r) => r == .outOfFuel && t.pc == 0x0100
      | _ => false) = true := by decide

/-- 10_state.md R32: DBG_RANGE over the end of the address space. -/
theorem test_range_wraps :
    (match transact (.dbgRange 0xFFFF 2) (start 0 [0x1111] [] [(0xFFFF, 0x2222)]) with
      | .next (_, r) => r == .words [0x2222, 0x1111]
      | _ => false) = true := by decide

/-! ### Witnesses: a state and operands that meet a statement's hypotheses, and boundary values of its
clauses -/

/-- A state about to run `add [0x0200], #5`, at the top of the address space. -/
def sampleState : State :=
  start 0xFFFF [0x0810, 0x0005, 0x0200] [(7, 0x1000), (1, 0x0041)] [(0x0200, 0x0007)]

theorem sampleState_wf : sampleState.mem.wf := by decide

/-- Each opcode has a word, as the premises about `opcodeField` ask (30_encoding.md R70). -/
theorem witness_Decodes : ∀ k : Fin 32, (opcodeField (BitVec.ofNat 16 (1024 * k.val))).toNat = k.val := by
  decide

theorem witness_DecodeBytesUndoesEncodeBytes :
    (Instr.add (.imm 0xFFFF) (.imm 0)).wellFormed = true ∧
    (Instr.cmp (.abs 0xFFFF) (.imm 0xFFFF)).wellFormed = true := by decide

/-- One pair of words of each class, which differ wherever the premises let them: N; S in modes 1 and 0; D in
modes 0 and 2; SD with source mode 1 and destination mode 0; and SS with modes 2 and 0. -/
theorem witness_UndecodedFieldsChangeNothing :
    ∀ p ∈ [((0x3C00 : Word), (0xBFFF : Word), 1), (0x3920, 0xB93F, 1), (0x3800, 0xB8FF, 2),
      (0x2000, 0xA3E7, 1), (0x2010, 0xA3F7, 2), (0x0520, 0x8527, 1), (0x1200, 0x92E7, 3)],
      opcodeField p.1 = opcodeField p.2.1 ∧
      (decodesSource (opcodeField p.1).toNat → srcMode p.1 = srcMode p.2.1) ∧
      (decodesSource (opcodeField p.1).toNat → srcMode p.1 = 1 ∨ srcMode p.1 = 3 →
        srcReg p.1 = srcReg p.2.1) ∧
      (decodesDest (opcodeField p.1).toNat → dstMode p.1 = dstMode p.2.1) ∧
      (decodesDest (opcodeField p.1).toNat → dstMode p.1 = 1 ∨ dstMode p.1 = 3 →
        dstReg p.1 = dstReg p.2.1) ∧
      lengthOfWord p.1 = p.2.2 := by
  unfold decodesSource decodesDest; decide

theorem witness_StepExecutesTheDecodedInstruction :
    decode (sampleState.mem.readWord sampleState.pc) (sampleState.mem.readWord (sampleState.pc + 1))
      (sampleState.mem.readWord (sampleState.pc + 2)) = .add (.imm 0x0005) (.abs 0x0200) ∧
    (Instr.add (.imm 0x0005) (.abs 0x0200)).wellFormed = true := by decide

theorem witness_StepRunsTheStoredInstruction :
    ∀ (k : Nat) (h : k < (encode (.add (.imm 0x0005) (.abs 0x0200))).length),
      sampleState.mem.readWord (sampleState.pc + BitVec.ofNat 16 k) =
        (encode (.add (.imm 0x0005) (.abs 0x0200)))[k] := by decide

theorem witness_PlacedInstructionRunsNext :
    (Instr.add (.imm 0x0005) (.abs 0x0200)).wellFormed = true ∧ sampleState.mem.wf :=
  ⟨by decide, sampleState_wf⟩

/-- A state whose step faults: strict mode, and word 0x2000, `inc` with destination mode 0. -/
def strictState : State := strict (start 0x0100 [0x2000] [] [])

theorem witness_NoStepTraps :
    sampleState.strictDstMode0 = false ∧
    ∃ f, step strictState = .fault f := ⟨by decide, _, rfl⟩

theorem witness_StepFaultsExactlyAtStrictModeZero :
    (strictState.strictDstMode0 = true ∧ strictState.opcodeAtPc ∈ opcodesD ∧
      dstMode (strictState.mem.readWord strictState.pc) = 0) ∧
    step strictState = .fault (.invalidDestinationMode 0x0100 0x2000) := ⟨by decide, rfl⟩

theorem witness_SourceOperandValues :
    srcMode 0x0408 = 0 ∧ srcMode 0x0528 = 1 ∧ srcMode 0x0608 = 2 ∧ srcMode 0x0728 = 3 := by decide

theorem witness_DestinationOperandLocations :
    dstMode 0x0400 = 0 ∧ dstMode 0x0408 = 1 ∧ dstMode 0x0410 = 2 ∧ dstMode 0x053A = 3 := by decide

/-- For `RunsAtDestination`: each destination mode, and mode 0 in each value of the strict mode. -/
theorem witness_RunsAtDestination :
    sampleState.mem.wf ∧ (strict sampleState).mem.wf ∧
    sampleState.destLocation (.imm 0) = none ∧ sampleState.strictDstMode0 = false ∧
    (strict sampleState).destLocation (.imm 0) = none ∧ (strict sampleState).strictDstMode0 = true ∧
    sampleState.destLocation (.reg 7) = some (.reg 7) ∧
    sampleState.destLocation (.abs 0xFFFF) = some (.mem 0xFFFF) ∧
    sampleState.destLocation (.ind 1) = some (.mem 0x0041) :=
  ⟨sampleState_wf, sampleState_wf, by decide⟩

theorem witness_CopyMovesTheSource : sampleState.mem.wf := sampleState_wf
theorem witness_AddStoresSumAndCarry : sampleState.mem.wf := sampleState_wf
theorem witness_SubStoresDifferenceAndBorrow : sampleState.mem.wf := sampleState_wf
theorem witness_LogicIsBitwise : sampleState.mem.wf := sampleState_wf
theorem witness_IncAndDecStepByOne : sampleState.mem.wf := sampleState_wf
theorem witness_ShiftsMoveBitsByOne : sampleState.mem.wf := sampleState_wf
theorem witness_RotatesCarryTheEndBitRound : sampleState.mem.wf := sampleState_wf
theorem witness_CallPushesTheReturnAddress : sampleState.mem.wf := sampleState_wf
theorem witness_PushStoresBelowTheStack : sampleState.mem.wf := sampleState_wf

theorem witness_PopMovesTheTopOfTheStack :
    sampleState.mem.wf ∧
    (Operand.reg 6 ≠ .reg 7 ∧ Operand.reg 6 ≠ .ind 7 ∧
      sampleState.destLocation (.reg 6) = some (.reg 6)) ∧
    (Operand.abs 0x1000 ≠ .reg 7 ∧ Operand.abs 0x1000 ≠ .ind 7 ∧
      sampleState.destLocation (.abs 0x1000) = some (.mem 0x1000)) ∧
    (Operand.ind 6 ≠ .reg 7 ∧ Operand.ind 6 ≠ .ind 7 ∧
      sampleState.destLocation (.ind 6) = some (.mem 0)) := ⟨sampleState_wf, by decide⟩

theorem witness_PopFollowsItsVariant :
    sampleState.mem.wf ∧ sampleState.strictDstMode0 = false ∧
    (strict sampleState).strictDstMode0 = true ∧
    (withVariant sampleState .variantB).popVariant = .variantB ∧
    (withVariant sampleState .variantC).popVariant = .variantC := ⟨sampleState_wf, by decide⟩

theorem witness_PushThenPopRestoresTheStack :
    sampleState.mem.wf ∧ Operand.reg 0 ≠ .reg 7 ∧ Operand.reg 0 ≠ .ind 7 ∧
    sampleState.destLocation (.reg 0) = some (.reg 0) := ⟨sampleState_wf, by decide⟩

/-- The state after the call itself meets the premises about the later state. -/
theorem witness_CallThenRetReturns :
    sampleState.mem.wf ∧ ∃ t v : State, exec (.call (.imm 0x0300)) sampleState = .next t ∧
      v.reg 7 = t.reg 7 ∧ v.mem.readWord (t.reg 7) = t.mem.readWord (t.reg 7) :=
  ⟨sampleState_wf, _, _, rfl, rfl, rfl⟩

theorem witness_HaltReturnsHalted : (start 0xFFFF [0xF3FF] [] []).opcodeAtPc = 28 := by decide

theorem witness_UnrecognisedOpcodesDoNothing :
    (start 0xFFFF [0x03FF] [] []).opcodeAtPc = 0 ∧ (start 0xFFFF [0x7400] [] []).opcodeAtPc = 29 ∧
    (start 0xFFFF [0x7800] [] []).opcodeAtPc = 30 ∧ (start 0xFFFF [0xFFFF] [] []).opcodeAtPc = 31 := by
  decide

theorem witness_StatusIsHaltedOnlyForOpcode28 :
    (∃ t, transact .step (start 0x0100 [0x7000] [] []) = .next (t, .status .halted)) ∧
    (∃ t, transact .step (start 0x0100 [0x6000] [] []) = .next (t, .status .continuing)) ∧
    ∃ f, transact .step strictState = .fault f := ⟨⟨_, rfl⟩, ⟨_, rfl⟩, _, rfl⟩

/-- A state about to run `halt`. -/
def haltState : State := start 0x0100 [0x7000] [] []

theorem reaches_zero (s : State) : ReachesWithoutHalt 0 s s :=
  ⟨rfl, fun _ _ h => absurd h (Nat.not_lt_zero _)⟩

/-- A first step that halts; a bound of 0; and a first step that faults. -/
theorem witness_RunEndsExactlyAtHalt :
    (∃ t, ReachesWithoutHalt 0 haltState haltState ∧ haltState.opcodeAtPc = 28 ∧
      step haltState = .next t ∧ transact (.run 1) haltState = .next (t, .status .halted)) ∧
    ReachesWithoutHalt 0 sampleState sampleState ∧
    ∃ f, ReachesWithoutHalt 0 strictState strictState ∧ step strictState = .fault f ∧
      transact (.run 1) strictState = .fault f :=
  ⟨⟨haltState.advance 1, reaches_zero _, by decide, rfl,
      runReply_succ_of_halted (s := haltState) 0 rfl (by decide)⟩,
    reaches_zero _, .invalidDestinationMode 0x0100 0x2000, reaches_zero _, rfl,
    runReply_succ_of_fault (s := strictState) 0 rfl⟩

/-- Byte 0x00009, of `FRAGMENT_SIZE` 4, before and after its fragment is allocated, with fragments below and
above it; and the top byte. -/
theorem witness_ByteWriteAllocatesTheAlignedChunk :
    let m := ((Memory.fresh 0xAA 2).byteWrite 0x00002 0x22).byteWrite 0x00064 0x44
    (m.wf ∧ ¬ m.covered 0x00009) ∧
    ((m.byteWrite 0x00009 0x11).wf ∧ (m.byteWrite 0x00009 0x11).covered 0x00009 ∧
      (m.byteWrite 0x00009 0x11).covered 0x0000B ∧ ¬ (m.byteWrite 0x00009 0x11).covered 0x0000C) ∧
    ¬ m.covered 0x1FFFF := by decide

theorem witness_WordsAreTwoBytesHighFirst : sampleState.mem.wf := sampleState_wf

/-- A state with one fragment, of bytes 8 to 11. -/
def fragmentState : State :=
  { State.construct 0xAA 2 false .variantA with mem := (Memory.fresh 0xAA 2).byteWrite 0x00009 0x11 }

theorem fragmentState_fragmentList :
    fragmentState.mem.fragmentList = [(8, [0xAA, 0x11, 0xAA, 0xAA])] := by decide

/-- Bytes at both ends of the fragment, just outside it, and the top byte. -/
theorem witness_ByteTransactionsReadAndWriteOneByte :
    fragmentState.mem.wf ∧
    (∀ b ∈ [(0x00008 : ByteAddr), 0x0000B], ∃ f ∈ fragmentState.mem.fragmentList,
      f.1 ≤ b.toNat ∧ b.toNat < f.1 + f.2.length) ∧
    (∀ b ∈ [(0x00007 : ByteAddr), 0x0000C, 0x1FFFF], ∀ f ∈ fragmentState.mem.fragmentList,
      ¬(f.1 ≤ b.toNat ∧ b.toNat < f.1 + f.2.length)) := by
  refine ⟨by decide, ?_⟩
  simp [fragmentState_fragmentList]

theorem witness_RangeReadWrapsAround : (1 ≤ 1 ∧ 1 ≤ 65536) ∧ (1 ≤ 65536 ∧ 65536 ≤ 65536) := by decide

theorem witness_ResetTakesOnlyLegalFragmentSizes :
    (∀ k : Fin 18, 0 ≠ 2 ^ k.val) ∧ (∀ k : Fin 18, 3 ≠ 2 ^ k.val) ∧
    (∀ k : Fin 18, 2 ^ 18 ≠ 2 ^ k.val) := by decide

theorem witness_StepKeepsMemoryCanonical :
    ∃ t, sampleState.mem.wf ∧ step sampleState = .next t := ⟨_, sampleState_wf, rfl⟩

theorem witness_TransactionsKeepMemoryCanonical :
    ∃ t r, sampleState.mem.wf ∧ transact (.byteWrite 0x1FFFF 0x12) sampleState = .next (t, r) :=
  ⟨_, _, sampleState_wf, rfl⟩

theorem witness_ParametersChangeOnlyInReset :
    (∃ t, step sampleState = .next t) ∧
    (∀ init size, Transaction.wordWrite 0xFFFF 0x1234 ≠ .reset init size) ∧
    ∃ t p, transact (.wordWrite 0xFFFF 0x1234) sampleState = .next (t, p) :=
  ⟨⟨_, rfl⟩, (fun _ _ h => by cases h), _, _, rfl⟩

theorem witness_StepNeverFreesFragments : ∃ t, step sampleState = .next t := ⟨_, rfl⟩

/-- The same words written with `FRAGMENT_SIZE` 2^17 and 2. -/
theorem witness_StepSeesOnlyByteValues :
    let t : State := { sampleState with
      mem := setWords ((Memory.fresh 0x00 1).writeWords 0xFFFF [0x0810, 0x0005, 0x0200])
        [(0x0200, 0x0007)] }
    sampleState.mem.wf ∧ t.mem.wf ∧ SameButFragments sampleState t ∧
    t.mem.fragments ≠ sampleState.mem.fragments :=
  ⟨sampleState_wf, by decide, ⟨fun _ => rfl, rfl, rfl, rfl, rfl, rfl, rfl, fun _ => rfl⟩, by decide⟩

theorem witness_InterruptFlagIsNeverRead :
    SameButIe sampleState (sampleState.setIe true) ∧
    (∃ t, step (start 0x0100 [0x6800] [] []) = .next t ∧ t.ie ≠ (start 0x0100 [0x6800] [] []).ie) :=
  ⟨rfl, _, rfl, by decide⟩

/-- A destination field in mode 1, and `r7` in a `push`. -/
theorem witness_StepWritesOnlyNamedRegisters :
    (∃ t, step (start 0x0100 [0x200B] [] []) = .next t ∧ t.reg 3 ≠ (start 0x0100 [0x200B] [] []).reg 3) ∧
    ∃ t, step (start 0x0100 [0x4520] [] []) = .next t ∧ t.reg 7 ≠ (start 0x0100 [0x4520] [] []).reg 7 :=
  ⟨⟨_, rfl, by decide⟩, _, rfl, by decide⟩

theorem witness_StepWritesOnlyTabledFlags :
    (∃ t, step (start 0x0100 [0x6000] [] []) = .next t ∧ t.c ≠ (start 0x0100 [0x6000] [] []).c) ∧
    (∃ t, step (start 0x0100 [0x200B] [(3, 0xFFFF)] []) = .next t ∧
      t.z ≠ (start 0x0100 [0x200B] [(3, 0xFFFF)] []).z) ∧
    ∃ t, step (start 0x0100 [0x6800] [] []) = .next t ∧ t.ie ≠ (start 0x0100 [0x6800] [] []).ie :=
  ⟨⟨_, rfl, by decide⟩, ⟨_, rfl, by decide⟩, _, rfl, by decide⟩

end Sys2Proof.Tests
end

section
/-! PROOFS. The opcode and the destination operand of an instruction, tied to the decoder: what the word at
`pc` says of the instruction that the step executes. -/

namespace Sys2Proof

/-- The opcode of an instruction (30_encoding.md R76). -/
def Instr.opcode : Instr → Nat
  | .unrecognised0 => 0
  | .copy _ _ => 1
  | .add _ _ => 2
  | .sub _ _ => 3
  | .cmp _ _ => 4
  | .and _ _ => 5
  | .or _ _ => 6
  | .xor _ _ => 7
  | .inc _ => 8
  | .dec _ => 9
  | .shl _ => 10
  | .shr _ => 11
  | .rtl _ => 12
  | .rtr _ => 13
  | .call _ => 14
  | .ret => 15
  | .reti => 16
  | .push _ => 17
  | .pop _ => 18
  | .jmp _ => 19
  | .jz _ => 20
  | .jnz _ => 21
  | .jc _ => 22
  | .jnc _ => 23
  | .stc => 24
  | .clc => 25
  | .ei => 26
  | .di => 27
  | .halt => 28
  | .unrecognised29 => 29
  | .unrecognised30 => 30
  | .unrecognised31 => 31

/-- The operand an instruction of class `SD` or `D` writes (30_encoding.md R75). -/
def Instr.dest? : Instr → Option Operand
  | .copy _ dst | .add _ dst | .sub _ dst | .and _ dst | .or _ dst | .xor _ dst => some dst
  | .inc dst | .dec dst | .shl dst | .shr dst | .rtl dst | .rtr dst | .pop dst => some dst
  | _ => none

/-- Decoding selects the instruction by the opcode field (30_encoding.md R76). -/
@[simp] theorem opcode_decode (w e1 e2 : Word) : (decode w e1 e2).opcode = (opcodeField w).toNat := by
  have := (opcodeField w).isLt
  unfold decode
  split
  case h_32 =>
    simp only [imp_false] at *
    simp only [Instr.opcode]
    omega
  all_goals exact Eq.symm ‹_›

/-- A destination that decoding finds comes from the destination fields of an `SD` or `D` word. -/
theorem dest?_decode {w e1 e2 : Word} {dst : Operand} (h : (decode w e1 e2).dest? = some dst) :
    ((opcodeField w).toNat ∈ Machine.opcodesSD ∨ (opcodeField w).toNat ∈ Machine.opcodesD) ∧
      ∃ e, dst = destOperand (dstMode w) (dstReg w) e := by
  constructor
  · rw [← opcode_decode w e1 e2]
    cases hi : decode w e1 e2 <;>
      simp_all [Instr.dest?, Instr.opcode, Machine.opcodesSD, Machine.opcodesD]
  · unfold decode at h
    split at h <;> simp only [Instr.dest?, Option.some.injEq, reduceCtorEq] at h <;>
      exact ⟨_, h.symm⟩

theorem destOperand_eq_reg {m : BitVec 2} {r q : RegNo} {e : Word} (h : destOperand m r e = .reg q) :
    m = 1 ∧ r = q := by
  have hm : m = 1 := by rw [← mode_destOperand m r e, h]; rfl
  subst hm
  exact ⟨rfl, Operand.reg.inj h⟩

theorem Instr.opcode_eq_28_iff (i : Instr) : i.opcode = 28 ↔ i = .halt := by
  cases i <;> simp [Instr.opcode]

end Sys2Proof

namespace Sys2Proof.Machine

@[simp] theorem State.fetch_opcode (s : State) : s.fetch.opcode = s.opcodeAtPc := opcode_decode _ _ _

/-- A fetched destination that is a register is named by the word at `pc`, in mode 1. -/
theorem State.fetch_dest?_reg {s : State} {r : RegNo} (h : s.fetch.dest? = some (.reg r)) :
    (s.opcodeAtPc ∈ opcodesSD ∨ s.opcodeAtPc ∈ opcodesD) ∧
      dstMode (s.mem.readWord s.pc) = 1 ∧ dstReg (s.mem.readWord s.pc) = r := by
  obtain ⟨hop, e, he⟩ := dest?_decode h
  exact ⟨hop, destOperand_eq_reg he.symm⟩

/-- STEP's status is `halted` exactly for opcode 28 (10_state.md R34). -/
theorem stepStatus_eq (s : State) :
    stepStatus s = if s.opcodeAtPc = 28 then .halted else .continuing := by
  simp only [stepStatus, instrStatus, ← s.fetch_opcode, Instr.opcode_eq_28_iff]

theorem stepStatus_eq_halted_iff (s : State) : stepStatus s = .halted ↔ s.opcodeAtPc = 28 := by
  rw [stepStatus_eq]
  split <;> simp_all

end Sys2Proof.Machine
end

section
/-! PROOFS. The inversion of `exec`: whether an instruction can fault, and how one that completes changes the
state. What a step changes and keeps is read off the cases of `Effect`. -/

namespace Sys2Proof.Machine

/-- The opcodes that write `C` (10_state.md R27). -/
def opcodesWritingC : List Nat := [2, 3, 4, 10, 11, 12, 13, 24, 25]

/-- The opcodes that write `Z` (10_state.md R27). -/
def opcodesWritingZ : List Nat := [2, 3, 4, 5, 6, 7, 8, 9, 10, 11, 12, 13]

/-- `f` writes only the flags that the table of 10_state.md R27 gives opcode `k`. -/
def UpdatesTabledFlags (k : Nat) (f : Word → Update) : Prop :=
  (k ∈ opcodesWritingC ∨ ∀ cur, (f cur).c = none) ∧ (k ∈ opcodesWritingZ ∨ ∀ cur, (f cur).z = none)

/-- `Effect s i t`: the ways in which an instruction `i` that completes from `s` can give `t`, each with some
value `a` of `pc` after it. -/
inductive Effect (s : State) : Instr → State → Prop
  /-- Nothing but `pc` changes. -/
  | jump (i : Instr) (a : Word) : Effect s i (s.jump a)
  /-- The read-modify-write of a destination (40_operands.md R104). -/
  | update {i : Instr} {dst : Operand} {f : Word → Update} (a : Word) (hd : i.dest? = some dst)
      (hf : UpdatesTabledFlags i.opcode f) : Effect s i ((s.applyDest dst f).jump a)
  | pop (dst : Operand) (a : Word) : Effect s (.pop dst) ((s.popInto dst).jump a)
  /-- `call` and `push` put a word on the stack. -/
  | push {i : Instr} (hi : i.opcode ∈ [14, 17]) (v a : Word) : Effect s i ((s.push v).jump a)
  | ret (a : Word) : Effect s .ret (s.dropTop.jump a)
  | cmp (src dst : Operand) (z c : Bool) (a : Word) :
      Effect s (.cmp src dst) (((s.setZ z).setC c).jump a)
  /-- `stc` and `clc` write `C`. -/
  | setC {i : Instr} (hi : i.opcode ∈ [24, 25]) (b : Bool) (a : Word) : Effect s i ((s.setC b).jump a)
  /-- `ei` and `di` write `IE`. -/
  | setIe {i : Instr} (hi : i.opcode ∈ [26, 27]) (b : Bool) (a : Word) : Effect s i ((s.setIe b).jump a)

/-! ### The inversion -/

/-- An instruction with a destination completes or faults as the check of that destination says. -/
theorem exec_of_dest? {i : Instr} {dst : Operand} (s : State) (h : i.dest? = some dst) :
    ∃ t, exec i s = s.checkDest dst t ∧ Effect s i t := by
  cases i <;> simp only [Instr.dest?, Option.some.injEq, reduceCtorEq] at h <;> subst h
  case copy => exact ⟨_, rfl, .update _ rfl ⟨.inr fun _ => rfl, .inr fun _ => rfl⟩⟩
  case and | or | xor | inc | dec =>
    exact ⟨_, rfl, .update _ rfl ⟨.inr fun _ => rfl, .inl (by simp [Instr.opcode, opcodesWritingZ])⟩⟩
  case add | sub | shl | shr | rtl | rtr =>
    exact ⟨_, rfl, .update _ rfl
      ⟨.inl (by simp [Instr.opcode, opcodesWritingC]), .inl (by simp [Instr.opcode, opcodesWritingZ])⟩⟩
  case pop => exact ⟨_, rfl, .pop _ _⟩

theorem State.jumpIf_effect (s : State) (cond : Bool) (i : Instr) (src : Operand) :
    ∃ t, s.jumpIf cond src = .next t ∧ Effect s i t := by
  cases cond <;> exact ⟨_, rfl, .jump _ _⟩

/-- An instruction without a destination completes. -/
theorem exec_of_no_dest {i : Instr} (s : State) (h : i.dest? = none) :
    ∃ t, exec i s = .next t ∧ Effect s i t := by
  cases i <;> simp only [Instr.dest?, reduceCtorEq] at h
  case call | push => exact ⟨_, rfl, .push (by simp [Instr.opcode]) _ _⟩
  case ret => exact ⟨_, rfl, .ret _⟩
  case cmp => exact ⟨_, rfl, .cmp _ _ _ _ _⟩
  case stc | clc => exact ⟨_, rfl, .setC (by simp [Instr.opcode]) _ _⟩
  case ei | di => exact ⟨_, rfl, .setIe (by simp [Instr.opcode]) _ _⟩
  case jz | jnz | jc | jnc => exact s.jumpIf_effect _ _ _
  case reti | jmp | halt | unrecognised0 | unrecognised29 | unrecognised30 | unrecognised31 =>
    exact ⟨_, rfl, .jump _ _⟩

/-- An instruction that completes does so in one of the ways of `Effect`. -/
theorem exec_effect {i : Instr} {s t : State} (h : exec i s = .next t) : Effect s i t := by
  cases hd : i.dest? with
  | none =>
    obtain ⟨u, hu, he⟩ := exec_of_no_dest s hd
    exact Host.Outcome.next.inj (hu.symm.trans h) ▸ he
  | some dst =>
    obtain ⟨u, hu, he⟩ := exec_of_dest? s hd
    exact (State.checkDest_cases (hu.symm.trans h)).1 ▸ he

/-- No instruction is refused. -/
theorem exec_ne_refused (i : Instr) (s : State) (q : Refusal) : exec i s ≠ .refused q := by
  intro h
  cases hd : i.dest? with
  | none =>
    obtain ⟨u, hu, -⟩ := exec_of_no_dest s hd
    exact absurd (hu.symm.trans h) (by simp)
  | some dst =>
    obtain ⟨u, hu, -⟩ := exec_of_dest? s hd
    exact State.checkDest_ne_refused (hu.symm.trans h)

theorem step_effect {s t : State} (h : step s = .next t) : Effect s s.fetch t := exec_effect h

theorem step_ne_refused (s : State) (q : Refusal) : step s ≠ .refused q := exec_ne_refused _ s q

/-! ### What the shared operations leave unchanged -/

theorem State.push_reg_of_ne (s : State) (v : Word) {r : RegNo} (h : r ≠ spReg) :
    (s.push v).reg r = s.reg r := State.setReg_reg_ne s spReg r _ h

theorem State.dropTop_reg_of_ne (s : State) {r : RegNo} (h : r ≠ spReg) :
    s.dropTop.reg r = s.reg r := State.setReg_reg_ne s spReg r _ h

theorem State.applyDest_reg_of_ne (s : State) {dst : Operand} (f : Word → Update) {r : RegNo}
    (h : dst ≠ .reg r) : (s.applyDest dst f).reg r = s.reg r := by
  cases dst with
  | reg q => exact State.setReg_reg_ne s q r _ fun e => h (congrArg Operand.reg e.symm)
  | imm _ | abs _ | ind _ => rfl

/-- Variant `B` of `pop`, like the other two, changes no register but its destination and `r7`. -/
theorem State.popWithinUpdate_reg_of_ne (s : State) {dst : Operand} {r : RegNo} (h : dst ≠ .reg r)
    (hr : r ≠ spReg) : (s.popWithinUpdate dst).reg r = s.reg r := by
  cases dst with
  | imm _ => rfl
  | reg q =>
    exact (State.setReg_reg_ne s.dropTop q r _ fun e => h (congrArg Operand.reg e.symm)).trans
      (s.dropTop_reg_of_ne hr)
  | abs _ | ind _ => exact s.dropTop_reg_of_ne hr

theorem State.popInto_reg_of_ne (s : State) {dst : Operand} {r : RegNo} (h : dst ≠ .reg r)
    (hr : r ≠ spReg) : (s.popInto dst).reg r = s.reg r := by
  rw [State.popInto_eq]
  cases s.popVariant with
  | variantA => exact (State.dropTop_reg_of_ne _ hr).trans (s.applyDest_reg_of_ne _ h)
  | variantB => exact s.popWithinUpdate_reg_of_ne h hr
  | variantC => exact (State.applyDest_reg_of_ne _ _ h).trans (s.dropTop_reg_of_ne hr)

theorem State.applyDest_c (s : State) (dst : Operand) {f : Word → Update} (h : ∀ cur, (f cur).c = none) :
    (s.applyDest dst f).c = s.c := by
  cases hd : s.destLocation dst with
  | none => rw [State.applyDest_of_none f hd]
  | some loc => rw [State.applyDest_of_some f hd, State.writeFlags_c, h, Option.getD_none, State.writeLoc_c]

theorem State.applyDest_z (s : State) (dst : Operand) {f : Word → Update} (h : ∀ cur, (f cur).z = none) :
    (s.applyDest dst f).z = s.z := by
  cases hd : s.destLocation dst with
  | none => rw [State.applyDest_of_none f hd]
  | some loc => rw [State.applyDest_of_some f hd, State.writeFlags_z, h, Option.getD_none, State.writeLoc_z]

@[simp] theorem State.applyDest_ie (s : State) (dst : Operand) (f : Word → Update) :
    (s.applyDest dst f).ie = s.ie := by
  cases dst <;> rfl

/-- `pop` writes no flag, in any of its orders (44_control_stack.md R188). -/
theorem State.popInto_flags (s : State) (dst : Operand) :
    FlagsKept s (s.popInto dst) ∧ (s.popInto dst).ie = s.ie := by
  rw [State.popInto_eq]
  cases s.popVariant <;> cases dst <;> exact ⟨⟨rfl, rfl⟩, rfl⟩

/-! ### What an instruction changes -/

section
variable {s t : State} {i : Instr}

/-- A register changes only as a destination, or as `r7` in `call`, `ret`, `push` and `pop`. -/
theorem Effect.reg_changed {r : RegNo} (h : Effect s i t) (hr : t.reg r ≠ s.reg r) :
    i.dest? = some (.reg r) ∨ (r = spReg ∧ i.opcode ∈ [14, 15, 17, 18]) := by
  cases h with
  | jump | cmp | setC | setIe => exact absurd rfl hr
  | @update _ dst f a hd hf =>
    by_cases he : dst = .reg r
    · exact .inl (he ▸ hd)
    · exact absurd (s.applyDest_reg_of_ne f he) hr
  | pop dst a =>
    by_cases he : dst = .reg r
    · exact .inl (congrArg some he)
    · by_cases hsp : r = spReg
      · exact .inr ⟨hsp, by simp [Instr.opcode]⟩
      · exact absurd (s.popInto_reg_of_ne he hsp) hr
  | push hi v a =>
    by_cases hsp : r = spReg
    · exact .inr ⟨hsp, (by decide : [14, 17] ⊆ [14, 15, 17, 18]) hi⟩
    · exact absurd (s.push_reg_of_ne v hsp) hr
  | ret a =>
    by_cases hsp : r = spReg
    · exact .inr ⟨hsp, by simp [Instr.opcode]⟩
    · exact absurd (s.dropTop_reg_of_ne hsp) hr

theorem Effect.c_changed (h : Effect s i t) (hc : t.c ≠ s.c) : i.opcode ∈ opcodesWritingC := by
  cases h with
  | jump | push | ret | setIe => exact absurd rfl hc
  | update a hd hf => exact hf.1.resolve_right fun hn => hc (s.applyDest_c _ hn)
  | pop dst a => exact absurd (s.popInto_flags dst).1.1 hc
  | cmp => simp [Instr.opcode, opcodesWritingC]
  | setC hi b a => exact (by decide : [24, 25] ⊆ opcodesWritingC) hi

theorem Effect.z_changed (h : Effect s i t) (hz : t.z ≠ s.z) : i.opcode ∈ opcodesWritingZ := by
  cases h with
  | jump | push | ret | setC | setIe => exact absurd rfl hz
  | update a hd hf => exact hf.2.resolve_right fun hn => hz (s.applyDest_z _ hn)
  | pop dst a => exact absurd (s.popInto_flags dst).1.2 hz
  | cmp => simp [Instr.opcode, opcodesWritingZ]

theorem Effect.ie_changed (h : Effect s i t) (hie : t.ie ≠ s.ie) : i.opcode ∈ [26, 27] := by
  cases h with
  | jump | push | ret | cmp | setC => exact absurd rfl hie
  | update a hd hf => exact absurd (s.applyDest_ie _ _) hie
  | pop dst a => exact absurd (s.popInto_flags dst).2 hie
  | setIe hi b a => exact hi

end

/-! ### The statements about what a step writes -/

/-- Settles O52: the cases of `Effect`, and the destination that the word at `pc` names. -/
theorem stepWritesOnlyNamedRegisters : Obligations.StepWritesOnlyNamedRegisters := by
  intro s t r h hr
  rcases (step_effect h).reg_changed hr with hd | ⟨hsp, hop⟩
  · exact .inl (State.fetch_dest?_reg hd)
  · exact .inr ⟨hsp, s.fetch_opcode ▸ hop⟩

/-- Settles O53: the cases of `Effect`, flag by flag. -/
theorem stepWritesOnlyTabledFlags : Obligations.StepWritesOnlyTabledFlags := by
  intro s t h
  rw [← s.fetch_opcode]
  exact ⟨(step_effect h).c_changed, (step_effect h).z_changed, (step_effect h).ie_changed⟩

end Sys2Proof.Machine
end

section
/-! PROOFS. The transactions STEP and RUN: the status beside a step, the step at which a run ends, and what
every step keeps and RUN therefore keeps too. -/

namespace Sys2Proof.Machine

/-! ### STEP -/

theorem stepReply_eq_next_iff {s t : State} {p : Response} :
    stepReply s = .next (t, p) ↔ step s = .next t ∧ p = .status (stepStatus s) := by
  cases hs : step s with
  | next u => simp [stepReply_of_next hs, eq_comm]
  | fault f => simp [stepReply_of_fault hs]
  | refused q => exact absurd hs (step_ne_refused s q)

theorem stepReply_eq_fault_iff {s : State} {f : Fault} : stepReply s = .fault f ↔ step s = .fault f := by
  cases hs : step s with
  | next u => simp [stepReply_of_next hs]
  | fault g => simp [stepReply_of_fault hs]
  | refused q => exact absurd hs (step_ne_refused s q)

/-- Settles O37, from the status of the fetched instruction. -/
theorem statusIsHaltedOnlyForOpcode28 : Obligations.StatusIsHaltedOnlyForOpcode28 := by
  intro s
  simp only [transact_step, ← stepStatus_eq]
  exact ⟨fun _ _ => stepReply_eq_next_iff, fun _ => stepReply_eq_fault_iff⟩

/-! ### Steps with no `halt` among them -/

theorem reachesWithoutHalt_zero_iff {s t : State} : ReachesWithoutHalt 0 s t ↔ s = t :=
  ⟨fun h => Host.Outcome.next.inj h.1,
    fun h => ⟨congrArg _ h, fun _ _ hj => absurd hj (Nat.not_lt_zero _)⟩⟩

theorem reachesWithoutHalt_succ_iff {k : Nat} {s t : State} :
    ReachesWithoutHalt (k + 1) s t ↔
      s.opcodeAtPc ≠ 28 ∧ ∃ u, step s = .next u ∧ ReachesWithoutHalt k u t := by
  constructor
  · rintro ⟨hrun, hno⟩
    refine ⟨hno 0 s k.succ_pos rfl, ?_⟩
    cases hs : step s with
    | next u =>
      rw [core_run_succ_of_next k hs] at hrun
      exact ⟨u, rfl, hrun, fun j v hj hv =>
        hno (j + 1) v (Nat.succ_lt_succ hj) ((core_run_succ_of_next j hs).trans hv)⟩
    | fault f => exact absurd ((core_run_succ_of_fault k hs).symm.trans hrun) (by simp)
    | refused q => exact absurd hs (step_ne_refused s q)
  · rintro ⟨hop, u, hs, hrun, hno⟩
    refine ⟨(core_run_succ_of_next k hs).trans hrun, fun j v hj hv => ?_⟩
    cases j with
    | zero => exact Host.Outcome.next.inj hv ▸ hop
    | succ j => exact hno j v (Nat.lt_of_succ_lt_succ hj) ((core_run_succ_of_next j hs).symm.trans hv)

/-- Fewer than `fuel` steps from `s`, none of which executes opcode 28, reach a state that meets `P`. -/
def ReachesWithin (fuel : Nat) (s : State) (P : State → Prop) : Prop :=
  ∃ (k : Nat) (u : State), k < fuel ∧ ReachesWithoutHalt k s u ∧ P u

theorem not_reachesWithin_zero (s : State) (P : State → Prop) : ¬ ReachesWithin 0 s P :=
  fun ⟨_, _, hk, _⟩ => Nat.not_lt_zero _ hk

theorem reachesWithin_succ_iff {fuel : Nat} {s : State} {P : State → Prop} :
    ReachesWithin (fuel + 1) s P ↔
      P s ∨ (s.opcodeAtPc ≠ 28 ∧ ∃ u, step s = .next u ∧ ReachesWithin fuel u P) := by
  constructor
  · rintro ⟨k, v, hk, hr, hv⟩
    cases k with
    | zero => exact .inl (reachesWithoutHalt_zero_iff.1 hr ▸ hv)
    | succ k =>
      obtain ⟨hop, u, hs, hr⟩ := reachesWithoutHalt_succ_iff.1 hr
      exact .inr ⟨hop, u, hs, k, v, Nat.lt_of_succ_lt_succ hk, hr, hv⟩
  · rintro (hp | ⟨hop, u, hs, k, v, hk, hr, hv⟩)
    · exact ⟨0, s, fuel.succ_pos, reachesWithoutHalt_zero_iff.2 rfl, hp⟩
    · exact ⟨k + 1, v, Nat.succ_lt_succ hk, reachesWithoutHalt_succ_iff.2 ⟨hop, u, hs, hr⟩, hv⟩

/-! ### RUN -/

/-- RUN's first step faults and so ends it, or it executes opcode 28 and ends it, or RUN goes on. -/
theorem runReply_succ_cases (fuel : Nat) (s : State) :
    (∃ f, step s = .fault f ∧ runReply (fuel + 1) s = .fault f) ∨
    (∃ u, step s = .next u ∧ s.opcodeAtPc = 28 ∧
      runReply (fuel + 1) s = .next (u, .status .halted)) ∨
    (∃ u, step s = .next u ∧ s.opcodeAtPc ≠ 28 ∧ runReply (fuel + 1) s = runReply fuel u) := by
  cases hs : step s with
  | fault f => exact .inl ⟨f, rfl, runReply_succ_of_fault fuel hs⟩
  | refused q => exact absurd hs (step_ne_refused s q)
  | next u =>
    by_cases hop : s.opcodeAtPc = 28
    · exact .inr (.inl ⟨u, rfl, hop,
        runReply_succ_of_halted fuel hs ((stepStatus_eq_halted_iff s).2 hop)⟩)
    · exact .inr (.inr ⟨u, rfl, hop,
        runReply_succ_of_continuing fuel hs (mt (stepStatus_eq_halted_iff s).1 hop)⟩)

theorem runReply_eq_halted_iff {fuel : Nat} {s t : State} :
    runReply fuel s = .next (t, .status .halted) ↔
      ReachesWithin fuel s fun u => u.opcodeAtPc = 28 ∧ step u = .next t := by
  induction fuel generalizing s with
  | zero => simp [runReply, not_reachesWithin_zero]
  | succ fuel ih =>
    rw [reachesWithin_succ_iff]
    rcases runReply_succ_cases fuel s with ⟨f, hs, hr⟩ | ⟨u, hs, hop, hr⟩ | ⟨u, hs, hop, hr⟩
    · simp [hs, hr]
    · simp [hs, hop, hr]
    · simp [hs, hop, hr, ih]

theorem runReply_eq_fault_iff {fuel : Nat} {s : State} {f : Fault} :
    runReply fuel s = .fault f ↔ ReachesWithin fuel s fun u => step u = .fault f := by
  induction fuel generalizing s with
  | zero => simp [runReply, not_reachesWithin_zero]
  | succ fuel ih =>
    rw [reachesWithin_succ_iff]
    rcases runReply_succ_cases fuel s with ⟨g, hs, hr⟩ | ⟨u, hs, hop, hr⟩ | ⟨u, hs, hop, hr⟩
    · simp [hs, hr]
    · simp [hs, hop, hr]
    · simp [hs, hop, hr, ih]

theorem runReply_eq_outOfFuel_iff {fuel : Nat} {s t : State} :
    runReply fuel s = .next (t, .outOfFuel) ↔ ReachesWithoutHalt fuel s t := by
  induction fuel generalizing s with
  | zero => simp [runReply, reachesWithoutHalt_zero_iff]
  | succ fuel ih =>
    rw [reachesWithoutHalt_succ_iff]
    rcases runReply_succ_cases fuel s with ⟨f, hs, hr⟩ | ⟨u, hs, hop, hr⟩ | ⟨u, hs, hop, hr⟩
    · simp [hs, hr]
    · simp [hop, hr]
    · simp [hs, hop, hr, ih]

/-- RUN has no response but `halted` and the report that the bound ran out. -/
theorem runReply_response {fuel : Nat} {s t : State} {p : Response}
    (h : runReply fuel s = .next (t, p)) : p = .status .halted ∨ p = .outOfFuel := by
  induction fuel generalizing s with
  | zero => exact .inr (by cases h; rfl)
  | succ fuel ih =>
    rcases runReply_succ_cases fuel s with ⟨f, -, hr⟩ | ⟨u, -, -, hr⟩ | ⟨u, -, -, hr⟩
    · exact absurd (hr.symm.trans h) (by simp)
    · exact .inl (by cases hr.symm.trans h; rfl)
    · exact ih (hr.symm.trans h)

theorem runReply_ne_refused (fuel : Nat) (s : State) (q : Refusal) : runReply fuel s ≠ .refused q := by
  induction fuel generalizing s with
  | zero => simp [runReply]
  | succ fuel ih =>
    rcases runReply_succ_cases fuel s with ⟨f, -, hr⟩ | ⟨u, -, -, hr⟩ | ⟨u, -, -, hr⟩
    · simp [hr]
    · simp [hr]
    · exact hr ▸ ih u

/-- Settles O38: each reply of RUN by induction on its bound, unfolding the first step. -/
theorem runEndsExactlyAtHalt : Obligations.RunEndsExactlyAtHalt :=
  fun fuel s => ⟨fun _ => runReply_eq_halted_iff, fun _ => runReply_eq_outOfFuel_iff,
    fun _ => runReply_eq_fault_iff, fun _ _ => runReply_response, runReply_ne_refused fuel s⟩

/-- What every step keeps, RUN keeps. -/
theorem runReply_keeps {P : State → Prop} (hstep : ∀ s t, P s → step s = .next t → P t) {fuel : Nat}
    {s t : State} {p : Response} (hs : P s) (h : runReply fuel s = .next (t, p)) : P t := by
  induction fuel generalizing s with
  | zero => cases h; exact hs
  | succ fuel ih =>
    rcases runReply_succ_cases fuel s with ⟨f, -, hr⟩ | ⟨u, hu, -, hr⟩ | ⟨u, hu, -, hr⟩
    · exact absurd (hr.symm.trans h) (by simp)
    · cases hr.symm.trans h; exact hstep s t hs hu
    · exact ih (hstep s u hs hu) (hr.symm.trans h)

/-! ### The memory's canonical form -/

theorem step_keeps_wf (s t : State) (hs : s.mem.wf) (h : step s = .next t) : t.mem.wf := by
  rcases exec_writesAtMostOneWord h with hm | ⟨a, v, hm⟩
  · exact hm ▸ hs
  · exact hm ▸ Memory.writeWord_wf hs a v

theorem resetReply_eq_next {initByte : Byte} {size : Nat} {s t : State} {p : Response}
    (h : resetReply initByte size s = .next (t, p)) :
    ∃ k, t = State.construct initByte k s.strictDstMode0 s.popVariant ∧ p = .none := by
  unfold resetReply at h
  split at h
  · cases h; exact ⟨_, rfl, rfl⟩
  · cases h

theorem rangeReply_eq_next {a : Word} {n : Nat} {s t : State} {p : Response}
    (h : rangeReply a n s = .next (t, p)) : t = s ∧ p = .words (s.mem.readWords a n) := by
  unfold rangeReply at h
  split at h
  · cases h; exact ⟨rfl, rfl⟩
  · cases h

/-- Settles O47: one word or byte write at most in each transaction but RUN, which keeps what steps keep,
and RESET, whose memory is fresh. -/
theorem transactionsKeepMemoryCanonical : Obligations.TransactionsKeepMemoryCanonical := by
  intro x s t p hs h
  cases x with
  | step => exact step_keeps_wf s t hs (stepReply_eq_next_iff.1 h).1
  | run fuel => exact runReply_keeps (P := fun s => s.mem.wf) step_keeps_wf hs h
  | wordWrite a v => cases h; exact Memory.writeWord_wf hs a v
  | byteWrite b v => cases h; exact Memory.byteWrite_wf hs b v
  | dbgRange a n => exact (rangeReply_eq_next h).1 ▸ hs
  | reset initByte size =>
    obtain ⟨k, rfl, -⟩ := resetReply_eq_next h
    exact Memory.fresh_wf initByte k
  | wordRead | byteRead | dbgReg | dbgPc | dbgC | dbgZ => cases h; exact hs

end Sys2Proof.Machine
end

section
/-! PROOFS. Noninterference. Where two states agree on what the operations of Ops.lean read, and the operations
keep the relation that holds between them, every instruction and every step does. -/

namespace Sys2Proof.Machine

/-- Related outcomes are two next states related by `R`, or the same stop. -/
theorem OutcomeRel.cases {R : State → State → Prop} {o p : Host.Outcome State Fault Refusal}
    (h : OutcomeRel R o p) :
    (∃ s t, o = .next s ∧ p = .next t ∧ R s t) ∨ (∃ f, o = .fault f ∧ p = .fault f) ∨
      ∃ q, o = .refused q ∧ p = .refused q := by
  cases o <;> cases p
  case next.next s t => exact .inl ⟨s, t, rfl, rfl, h⟩
  case fault.fault f g => exact .inr (.inl ⟨f, rfl, congrArg _ (Eq.symm h)⟩)
  case refused.refused q r => exact .inr (.inr ⟨q, rfl, congrArg _ (Eq.symm h)⟩)
  all_goals exact False.elim h

/-- A relation of states whose two sides read alike, and which every operation that writes keeps. -/
structure OperationCongruence (R : State → State → Prop) : Prop where
  reg {s t : State} (h : R s t) (r : RegNo) : t.reg r = s.reg r
  pc {s t : State} (h : R s t) : t.pc = s.pc
  c {s t : State} (h : R s t) : t.c = s.c
  z {s t : State} (h : R s t) : t.z = s.z
  strictDstMode0 {s t : State} (h : R s t) : t.strictDstMode0 = s.strictDstMode0
  popVariant {s t : State} (h : R s t) : t.popVariant = s.popVariant
  readWord {s t : State} (h : R s t) (a : Word) : t.readWord a = s.readWord a
  setReg {s t : State} (h : R s t) (r : RegNo) (v : Word) : R (s.setReg r v) (t.setReg r v)
  jump {s t : State} (h : R s t) (a : Word) : R (s.jump a) (t.jump a)
  setC {s t : State} (h : R s t) (b : Bool) : R (s.setC b) (t.setC b)
  setZ {s t : State} (h : R s t) (b : Bool) : R (s.setZ b) (t.setZ b)
  setIe {s t : State} (h : R s t) (b : Bool) : R (s.setIe b) (t.setIe b)
  writeWord {s t : State} (h : R s t) (a v : Word) : R (s.writeWord a v) (t.writeWord a v)

namespace OperationCongruence

variable {R : State → State → Prop} (hR : OperationCongruence R) {s t : State} (h : R s t)
include hR h

/-! ### What the two sides read -/

theorem source (o : Operand) : t.source o = s.source o := by
  cases o with
  | imm n => rfl
  | reg r => exact hR.reg h r
  | abs a => exact hR.readWord h a
  | ind r => exact (congrArg t.readWord (hR.reg h r)).trans (hR.readWord h _)

theorem destLocation (o : Operand) : t.destLocation o = s.destLocation o := by
  cases o with
  | imm _ | reg _ | abs _ => rfl
  | ind r => exact congrArg (some ∘ Location.mem) (hR.reg h r)

theorem readLoc (loc : Location) : t.readLoc loc = s.readLoc loc := by
  cases loc with
  | reg r => exact hR.reg h r
  | mem a => exact hR.readWord h a

theorem sp : t.sp = s.sp := hR.reg h spReg

theorem top : t.top = s.top := by
  rw [State.top, State.top, hR.sp h, hR.readWord h]

theorem fetch : t.fetch = s.fetch := by
  rw [State.fetch, State.fetch, hR.pc h, hR.readWord h, hR.readWord h, hR.readWord h]

theorem stepStatus : stepStatus t = stepStatus s := congrArg instrStatus (hR.fetch h)

/-! ### What the operations keep -/

theorem advance (n : Nat) : R (s.advance n) (t.advance n) := by
  rw [State.advance, State.advance, hR.pc h]
  exact hR.jump h _

theorem writeLoc (loc : Location) (v : Word) : R (s.writeLoc loc v) (t.writeLoc loc v) := by
  cases loc with
  | reg r => exact hR.setReg h r v
  | mem a => exact hR.writeWord h a v

theorem writeFlags (u : Update) : R (s.writeFlags u) (t.writeFlags u) := by
  rw [State.writeFlags, State.writeFlags, hR.c h, hR.z h]
  exact hR.setZ (hR.setC h (u.c.getD s.c)) (u.z.getD s.z)

theorem applyDest (dst : Operand) (f : Word → Update) : R (s.applyDest dst f) (t.applyDest dst f) := by
  rw [State.applyDest, State.applyDest, hR.destLocation h]
  cases s.destLocation dst with
  | none => exact h
  | some loc =>
    simp only [hR.readLoc h]
    exact hR.writeFlags (hR.writeLoc h _ _) _

theorem dropTop : R s.dropTop t.dropTop := by
  rw [State.dropTop, State.dropTop, hR.sp h]
  exact hR.setReg h _ _

theorem push (v : Word) : R (s.push v) (t.push v) := by
  rw [State.push, State.push, hR.sp h]
  exact hR.writeWord (hR.setReg h _ _) _ _

theorem popInto (dst : Operand) : R (s.popInto dst) (t.popInto dst) := by
  rw [State.popInto_eq, State.popInto_eq, hR.popVariant h]
  cases s.popVariant with
  | variantA =>
    simp only [State.popInOrder, State.popThenIncrement, hR.top h]
    exact hR.dropTop (hR.applyDest h _ _)
  | variantB =>
    simp only [State.popInOrder, State.popWithinUpdate, hR.destLocation h, hR.top h]
    cases s.destLocation dst with
    | none => exact h
    | some loc => exact hR.writeLoc (hR.dropTop h) _ _
  | variantC =>
    simp only [State.popInOrder, State.incrementThenPop, hR.top h]
    exact hR.applyDest (hR.dropTop h) _ _

/-! ### Instructions and steps -/

theorem checkDest (dst : Operand) {s' t' : State} (h' : R s' t') :
    OutcomeRel R (s.checkDest dst s') (t.checkDest dst t') := by
  have hstrict : t.strict = s.strict := hR.strictDstMode0 h
  rw [State.checkDest, State.checkDest, hstrict, hR.pc h, hR.readWord h]
  by_cases hf : s.strict = true ∧ dst.mode = 0
  · rw [if_pos hf, if_pos hf]; exact rfl
  · rw [if_neg hf, if_neg hf]; exact h'

theorem applySD {f g : Word → Word → Update} (hfg : g = f) (src dst : Operand) :
    OutcomeRel R (s.applySD f src dst) (t.applySD g src dst) := by
  rw [State.applySD, State.applySD, hR.source h, hfg]
  exact hR.checkDest h dst (hR.advance (hR.applyDest h _ _) _)

theorem applyD (f : Word → Update) (dst : Operand) :
    OutcomeRel R (s.applyD f dst) (t.applyD f dst) :=
  hR.checkDest h dst (hR.advance (hR.applyDest h _ _) _)

theorem jumpIf {b c : Bool} (hbc : c = b) (src : Operand) :
    OutcomeRel R (s.jumpIf b src) (t.jumpIf c src) := by
  rw [State.jumpIf, State.jumpIf, hR.source h, hbc]
  cases b with
  | false => exact hR.advance h _
  | true => exact hR.jump h _

/-- Every instruction gives related next states, or the same stop. -/
theorem exec (i : Instr) : OutcomeRel R (exec i s) (exec i t) := by
  cases i with
  | copy src dst => exact hR.applySD h rfl src dst
  | add src dst => exact hR.applySD h (congrArg addUpdate (hR.c h)) src dst
  | sub src dst => exact hR.applySD h (congrArg subUpdate (hR.c h)) src dst
  | and src dst => exact hR.applySD h rfl src dst
  | or src dst => exact hR.applySD h rfl src dst
  | xor src dst => exact hR.applySD h rfl src dst
  | cmp src dst =>
    show OutcomeRel R (execCmp src dst s) (execCmp src dst t)
    rw [execCmp, execCmp, hR.source h, hR.source h]
    exact hR.advance (hR.setC (hR.setZ h _) _) _
  | inc dst | dec dst | shl dst | shr dst | rtl dst | rtr dst => exact hR.applyD h _ dst
  | call src =>
    show OutcomeRel R (execCall src s) (execCall src t)
    rw [execCall, execCall, hR.source h, hR.pc (hR.advance h _)]
    exact hR.jump (hR.push (hR.advance h _) _) _
  | ret =>
    show OutcomeRel R (execRet s) (execRet t)
    rw [execRet, execRet, hR.top h]
    exact hR.dropTop (hR.jump h _)
  | push src =>
    show OutcomeRel R (execPush src s) (execPush src t)
    rw [execPush, execPush, hR.source h]
    exact hR.advance (hR.push h _) _
  | pop dst => exact hR.checkDest h dst (hR.advance (hR.popInto h dst) _)
  | jmp src =>
    show OutcomeRel R (execJmp src s) (execJmp src t)
    rw [execJmp, execJmp, hR.source h]
    exact hR.jump h _
  | jz src => exact hR.jumpIf h (hR.z h) src
  | jnz src => exact hR.jumpIf h (congrArg not (hR.z h)) src
  | jc src => exact hR.jumpIf h (hR.c h) src
  | jnc src => exact hR.jumpIf h (congrArg not (hR.c h)) src
  | stc | clc => exact hR.advance (hR.setC h _) 1
  | ei | di => exact hR.advance (hR.setIe h _) 1
  | reti | halt | unrecognised0 | unrecognised29 | unrecognised30 | unrecognised31 =>
    exact hR.advance h 1

theorem step : OutcomeRel R (step s) (step t) := by
  rw [Machine.step, Machine.step, hR.fetch h]
  exact hR.exec h _

/-! ### STEP and RUN -/

theorem stepReply : ReplyRel R (stepReply s) (stepReply t) := by
  rcases (hR.step h).cases with ⟨s', t', hs, ht, h'⟩ | ⟨f, hs, ht⟩ | ⟨q, hs, ht⟩
  · rw [stepReply_of_next hs, stepReply_of_next ht, hR.stepStatus h]
    exact ⟨h', rfl⟩
  · rw [stepReply_of_fault hs, stepReply_of_fault ht]
    exact rfl
  · exact absurd hs (step_ne_refused s q)

theorem runReply (fuel : Nat) : ReplyRel R (runReply fuel s) (runReply fuel t) := by
  induction fuel generalizing s t with
  | zero => exact ⟨h, rfl⟩
  | succ fuel ih =>
    rcases (hR.step h).cases with ⟨s', t', hs, ht, h'⟩ | ⟨f, hs, ht⟩ | ⟨q, hs, ht⟩
    · by_cases hst : Machine.stepStatus s = .halted
      · rw [runReply_succ_of_halted fuel hs hst,
          runReply_succ_of_halted fuel ht ((hR.stepStatus h).trans hst)]
        exact ⟨h', rfl⟩
      · rw [runReply_succ_of_continuing fuel hs hst,
          runReply_succ_of_continuing fuel ht (hR.stepStatus h ▸ hst)]
        exact ih h'
    · rw [runReply_succ_of_fault fuel hs, runReply_succ_of_fault fuel ht]
      exact rfl
    · exact absurd hs (step_ne_refused s q)

end OperationCongruence

/-! ### `IE` -/

theorem sameButIe_iff {s t : State} : SameButIe s t ↔ ∃ b, t = s.setIe b :=
  ⟨fun h => ⟨t.ie, h⟩, by rintro ⟨b, rfl⟩; rfl⟩

/-- No operation reads `IE` (10_state.md R28). -/
theorem sameButIe_congruence : OperationCongruence SameButIe := by
  constructor
  all_goals
    intro s t h
    obtain ⟨b, rfl⟩ := sameButIe_iff.1 h
    intros
    rfl

/-- Settles O51: the operations' congruence for STEP and RUN; the other transactions do not mention `IE`. -/
theorem interruptFlagIsNeverRead : Obligations.InterruptFlagIsNeverRead := by
  refine ⟨fun x s t h => ?_, fun s t h hie => ?_⟩
  · cases x with
    | step => exact sameButIe_congruence.stepReply h
    | run fuel => exact sameButIe_congruence.runReply h fuel
    | dbgRange a n =>
      obtain ⟨b, rfl⟩ := sameButIe_iff.1 h
      show ReplyRel _ (rangeReply a n s) (rangeReply a n _)
      unfold rangeReply
      by_cases hn : 1 ≤ n ∧ n ≤ 65536
      · rw [if_pos hn, if_pos hn]; exact ⟨rfl, rfl⟩
      · rw [if_neg hn, if_neg hn]; exact rfl
    | reset initByte size =>
      obtain ⟨b, rfl⟩ := sameButIe_iff.1 h
      show ReplyRel _ (resetReply initByte size s) (resetReply initByte size _)
      unfold resetReply
      cases legalFragLog size with
      | none => exact rfl
      | some k => exact ⟨rfl, rfl⟩
    | wordRead | wordWrite | byteRead | byteWrite | dbgReg | dbgPc | dbgC | dbgZ =>
      obtain ⟨b, rfl⟩ := sameButIe_iff.1 h
      exact ⟨rfl, rfl⟩
  · have hop := (step_effect h).ie_changed hie
    simpa using hop

end Sys2Proof.Machine
end

section
/-! PROOFS. The host's reads and writes of memory, and the state after RESET. -/

namespace Sys2Proof.Machine

/-! ### DBG_RANGE -/

theorem Memory.readWords_eq_map (m : Memory) (a : Word) (n : Nat) :
    m.readWords a n = (List.range n).map fun k => m.readWord (a + BitVec.ofNat 16 k) := by
  induction n generalizing a with
  | zero => rfl
  | succ n ih =>
    have hnext : ∀ k : Nat,
        a + 1#16 + BitVec.ofNat 16 k = a + BitVec.ofNat 16 (k + 1) := fun k => by
      rw [BitVec.add_assoc, BitVec.ofNat_add, BitVec.add_comm 1#16]
    simp [Memory.readWords, List.range_succ_eq_map, ih, hnext]

/-- Settles O41, by induction on the count. -/
theorem rangeReadWrapsAround : Obligations.RangeReadWrapsAround := by
  intro s a n h1 hn
  rw [← Memory.readWords_eq_map]
  exact if_pos ⟨h1, hn⟩

/-! ### Bytes and the fragments that cover them -/

theorem cellAt_of_not_mem {init : Byte} {b : Nat} {cells : List Host.Cell}
    (h : ∀ cell ∈ cells, cell.1 ≠ b) : cellAt init b cells = init := by
  induction cells with
  | nil => rfl
  | cons cell rest ih =>
    rw [cellAt, if_neg (h cell List.mem_cons_self)]
    exact ih fun x hx => h x (List.mem_cons_of_mem _ hx)

/-- A byte in no fragment reads `INIT_BYTE` (20_memory.md R43). -/
theorem Memory.byteRead_of_not_covered {m : Memory} (h : m.wf) {b : ByteAddr}
    (hb : ¬ m.covered b.toNat) : m.byteRead b = m.initByte := by
  obtain ⟨-, -, hcov, -, -⟩ := h
  exact cellAt_of_not_mem fun cell hcell e => hb (e ▸ hcov cell hcell)

theorem Memory.mem_fragmentList_iff {m : Memory} {f : Nat × List Byte} :
    f ∈ m.fragmentList ↔ ∃ start ∈ m.fragments, f = (start, (List.range m.fragmentSize).map fun k =>
      cellAt m.unlisted (start + k) m.cells) := by
  simp [Memory.fragmentList, eq_comm]

/-- The bytes of a fragment are what its addresses read as. -/
theorem Memory.fragmentList_getElem? {m : Memory} {f : Nat × List Byte} (hf : f ∈ m.fragmentList)
    {b : ByteAddr} (h1 : f.1 ≤ b.toNat) (h2 : b.toNat < f.1 + f.2.length) :
    f.2[b.toNat - f.1]? = some (m.byteRead b) := by
  obtain ⟨start, -, rfl⟩ := Memory.mem_fragmentList_iff.1 hf
  simp only [List.length_map, List.length_range] at h1 h2 ⊢
  have hk : b.toNat - start < m.fragmentSize := by omega
  simp [hk, Memory.byteRead, Nat.add_sub_cancel' h1]

/-- A byte is covered exactly where the spec's list has a fragment over it. -/
theorem Memory.covered_iff_fragmentList {m : Memory} {b : Nat} :
    m.covered b ↔ ∃ f ∈ m.fragmentList, f.1 ≤ b ∧ b < f.1 + f.2.length := by
  simp [Memory.covered, Memory.fragmentList]

/-- Settles O54: the bytes of a fragment list are the cells', and a byte write is read back. -/
theorem byteTransactionsReadAndWriteOneByte : Obligations.ByteTransactionsReadAndWriteOneByte := by
  intro s b v hwf
  refine ⟨⟨_, rfl, rfl, fun f hf h1 h2 => Memory.fragmentList_getElem? hf h1 h2, fun hno => ?_⟩,
    _, rfl, rfl, ?_, fun a ha => Memory.byteRead_byteWrite_ne _ v ha, fun _ _ => rfl, rfl, ⟨rfl, rfl⟩,
    rfl, rfl, rfl, rfl, rfl⟩
  · refine Memory.byteRead_of_not_covered hwf fun hc => ?_
    obtain ⟨f, hf, hb⟩ := Memory.covered_iff_fragmentList.1 hc
    exact hno f hf hb
  · rw [transact, Memory.byteRead_byteWrite_self hwf]

/-! ### RESET -/

/-- Settles O43, field by field from the construction. -/
theorem resetStateIsAllZero : Obligations.ResetStateIsAllZero :=
  ⟨fun initByte k strict variant => ⟨State.construct_reg initByte k strict variant, rfl, rfl, rfl, rfl,
    Memory.fresh_byteRead initByte k, fun _ => rfl, rfl⟩, rfl⟩

end Sys2Proof.Machine
end

section
/-! PROOFS. Decoding undoes encoding, for words that lie anywhere: in memory, or at the head of a list. -/

namespace Sys2Proof

/-- `f` gives the words `ws` by their place, from 0 on, and any words after them. -/
def HoldsWords (f : Nat → Word) (ws : List Word) : Prop := ∀ (k : Nat) (hk : k < ws.length), f k = ws[k]

/-! ### The fields and extension words of an encoding, by operand class (30_encoding.md R75) -/

section
variable {f : Nat → Word} {op : BitVec 5} {src dst : Operand}

theorem fields_of_encodeN (hf : HoldsWords f (encodeN op)) : opcodeField (f 0) = op := by
  rw [show f 0 = instrWord op 0 0 0 0 from hf 0 Nat.zero_lt_one, opcodeField_instrWord]

theorem fields_of_encodeS (hf : HoldsWords f (encodeS op src)) :
    opcodeField (f 0) = op ∧ sourceOf (f 0) (f 1) = src := by
  have h0 : f 0 = instrWord op src.mode src.regField 0 0 := hf 0 (Nat.succ_pos _)
  have h1 : src.sourceWords.head?.getD (f 1) = f 1 := by
    cases src with
    | imm n | abs n => exact (hf 1 Nat.one_lt_two).symm
    | reg r | ind r => rfl
  rw [sourceOf, h0, opcodeField_instrWord, srcMode_instrWord, srcReg_instrWord]
  exact ⟨rfl, sourceOperand_mode_regField src _ h1⟩

theorem fields_of_encodeD (hd : dst.wellFormedDest = true) (hf : HoldsWords f (encodeD op dst)) :
    opcodeField (f 0) = op ∧ destOf (f 0) (f 1) = dst := by
  have h0 : f 0 = instrWord op 0 0 dst.mode dst.regField := hf 0 (Nat.succ_pos _)
  have h1 : dst.destWords.head?.getD (f 1) = f 1 := by
    cases dst with
    | abs n => exact (hf 1 Nat.one_lt_two).symm
    | imm n | reg r | ind r => rfl
  rw [destOf, h0, opcodeField_instrWord, dstMode_instrWord, dstReg_instrWord]
  exact ⟨rfl, destOperand_mode_regField dst _ hd h1⟩

/-- With two operands, whose second may be a destination or a source, the extension words `ws` of the second
come after those of the first (30_encoding.md R74). -/
theorem words_of_two_operands {w : Word} {ws : List Word} (hm : srcMode w = src.mode)
    (hf : HoldsWords f (w :: (src.sourceWords ++ ws))) :
    src.sourceWords.head?.getD (f 1) = f 1 ∧
      ws.head?.getD (wordAfterSource w (f 1) (f 2)) = wordAfterSource w (f 1) (f 2) := by
  rw [wordAfterSource, hm]
  cases src with
  | imm n | abs n =>
    refine ⟨(hf 1 (by simp [Operand.sourceWords])).symm, ?_⟩
    cases ws with
    | nil => rfl
    | cons e es => exact (hf 2 (by simp [Operand.sourceWords])).symm
  | reg r | ind r =>
    refine ⟨rfl, ?_⟩
    cases ws with
    | nil => rfl
    | cons e es => exact (hf 1 (by simp [Operand.sourceWords])).symm

theorem fields_of_encodeSD (hd : dst.wellFormedDest = true) (hf : HoldsWords f (encodeSD op src dst)) :
    opcodeField (f 0) = op ∧ sourceOf (f 0) (f 1) = src ∧ destAfterSource (f 0) (f 1) (f 2) = dst := by
  have h0 : f 0 = instrWord op src.mode src.regField dst.mode dst.regField := hf 0 (Nat.succ_pos _)
  obtain ⟨h1, h2⟩ := words_of_two_operands (srcMode_instrWord _ _ _ _ _) hf
  rw [sourceOf, destAfterSource, h0, opcodeField_instrWord, srcMode_instrWord, srcReg_instrWord,
    dstMode_instrWord, dstReg_instrWord]
  exact ⟨rfl, sourceOperand_mode_regField src _ h1, destOperand_mode_regField dst _ hd h2⟩

theorem fields_of_encodeSS (hf : HoldsWords f (encodeSS op src dst)) :
    opcodeField (f 0) = op ∧ sourceOf (f 0) (f 1) = src ∧ secondSource (f 0) (f 1) (f 2) = dst := by
  have h0 : f 0 = instrWord op src.mode src.regField dst.mode dst.regField := hf 0 (Nat.succ_pos _)
  obtain ⟨h1, h2⟩ := words_of_two_operands (srcMode_instrWord _ _ _ _ _) hf
  rw [sourceOf, secondSource, h0, opcodeField_instrWord, srcMode_instrWord, srcReg_instrWord,
    dstMode_instrWord, dstReg_instrWord]
  exact ⟨rfl, sourceOperand_mode_regField src _ h1, sourceOperand_mode_regField dst _ h2⟩

end

/-! ### Length and decoding -/

theorem two_operands_length_le (w : Word) (src : Operand) {ws : List Word} (h : ws.length ≤ 1) :
    (w :: (src.sourceWords ++ ws)).length ≤ 3 := by
  have := Laws.EncodedWords.sourceWords_length_le src
  rw [List.length_cons, List.length_append]
  omega

/-- An instruction has at most two extension words (30_encoding.md R77). -/
theorem encode_length_le (i : Instr) : (encode i).length ≤ 3 := by
  have hsrc := Laws.EncodedWords.sourceWords_length_le
  have hdst := Laws.EncodedWords.destWords_length_le
  cases i with
  | copy src dst | add src dst | sub src dst | and src dst | or src dst | xor src dst =>
    exact two_operands_length_le _ src (hdst dst)
  | cmp src dst => exact two_operands_length_le _ src (hsrc dst)
  | inc dst | dec dst | shl dst | shr dst | rtl dst | rtr dst | pop dst =>
    exact Nat.succ_le_succ ((hdst dst).trans one_le_two)
  | call src | push src | jmp src | jz src | jnz src | jc src | jnc src =>
    exact Nat.succ_le_succ ((hsrc src).trans one_le_two)
  | ret | reti | stc | clc | ei | di | halt | unrecognised0 | unrecognised29 | unrecognised30
  | unrecognised31 =>
    exact Nat.succ_le_succ (Nat.zero_le 2)

/-- Where the words of a well-formed instruction lie, decoding gives it back (30_encoding.md R76). -/
theorem decode_of_encode {i : Instr} {f : Nat → Word} (hi : i.wellFormed = true)
    (hf : HoldsWords f (encode i)) : decode (f 0) (f 1) (f 2) = i := by
  cases i with
  | copy | add | sub | and | or | xor =>
    obtain ⟨hop, hs, hd⟩ := fields_of_encodeSD hi hf
    rw [decode, hop, hs, hd]; rfl
  | cmp =>
    obtain ⟨hop, hs, hd⟩ := fields_of_encodeSS hf
    rw [decode, hop, hs, hd]; rfl
  | inc | dec | shl | shr | rtl | rtr | pop =>
    obtain ⟨hop, hd⟩ := fields_of_encodeD hi hf
    rw [decode, hop, hd]; rfl
  | call | push | jmp | jz | jnz | jc | jnc =>
    obtain ⟨hop, hs⟩ := fields_of_encodeS hf
    rw [decode, hop, hs]; rfl
  | ret | reti | stc | clc | ei | di | halt | unrecognised0 | unrecognised29 | unrecognised30
  | unrecognised31 =>
    rw [decode, fields_of_encodeN hf]; rfl

end Sys2Proof
end

section
/-! PROOFS. Bytes, words and fragments: what byte writes and word writes do to what memory reads, and a
program stored at `pc`. -/

namespace Sys2Proof.Machine

/-! ### Bytes and words as numbers -/

theorem wordOfBytes_eq_ofNat (h l : Byte) :
    wordOfBytes h l = BitVec.ofNat 16 (h.toNat * 256 + l.toNat) := by
  have := h.isLt
  have := l.isLt
  apply BitVec.eq_of_toNat_eq
  rw [wordOfBytes, BitVec.toNat_append, ← Nat.shiftLeft_add_eq_or_of_lt l.isLt, Nat.shiftLeft_eq,
    BitVec.toNat_ofNat]
  omega

theorem highByte_toNat (v : Word) : (highByte v).toNat = v.toNat / 256 := by
  have := v.isLt
  rw [highByte, BitVec.extractLsb'_toNat, Nat.shiftRight_eq_div_pow]
  omega

theorem lowByte_toNat (v : Word) : (lowByte v).toNat = v.toNat % 256 := by
  rw [lowByte, BitVec.extractLsb'_toNat, Nat.shiftRight_zero]

theorem highByte_eq_ofNat (v : Word) : highByte v = BitVec.ofNat 8 (v.toNat / 256) := by
  rw [← highByte_toNat, BitVec.ofNat_toNat, BitVec.setWidth_eq]

theorem lowByte_eq_ofNat (v : Word) : lowByte v = BitVec.ofNat 8 (v.toNat % 256) := by
  rw [← lowByte_toNat, BitVec.ofNat_toNat, BitVec.setWidth_eq]

/-- Settles O40: the two bytes of a word as numbers, and the frame of a word write. -/
theorem wordsAreTwoBytesHighFirst : Obligations.WordsAreTwoBytesHighFirst := by
  intro s a v hwf
  refine ⟨?_, s.writeWord a v, rfl, ?_, ?_, ?_, rfl, ⟨rfl, rfl⟩, s.writeWord_frame a v⟩
  · rw [← wordOfBytes_eq_ofNat]; rfl
  · rw [← highByte_eq_ofNat, ← lowByte_eq_ofNat]; rfl
  · rw [← highByte_toNat]; exact congrArg _ (Memory.byteRead_writeWord_high hwf a v)
  · rw [← lowByte_toNat]; exact congrArg _ (Memory.byteRead_writeWord_low hwf a v)

/-! ### The fragment that covers a byte -/

/-- The aligned chunk that holds `b` is the only one that does. -/
theorem chunkStart_eq_of_mem {size f b : Nat} (hf : f % size = 0) (h1 : f ≤ b) (h2 : b < f + size) :
    chunkStart size b = f := by
  obtain ⟨q, rfl⟩ := Nat.dvd_of_mod_eq_zero hf
  rw [chunkStart, Nat.div_eq_of_lt_le (k := q) (by rwa [Nat.mul_comm])
    (by rwa [Nat.succ_mul, Nat.mul_comm]), Nat.mul_comm]

/-- A byte is covered exactly where its aligned chunk is allocated. -/
theorem Memory.covered_iff_chunkStart_mem {m : Memory} (h : m.wf) {b : Nat} :
    m.covered b ↔ chunkStart m.fragmentSize b ∈ m.fragments := by
  obtain ⟨-, -, -, -, haligned⟩ := h
  constructor
  · rintro ⟨f, hf, h1, h2⟩
    rwa [chunkStart_eq_of_mem (haligned f hf).1 h1 h2]
  · exact fun hf => ⟨_, hf, chunkStart_le _ _, lt_chunkStart_add b m.fragmentSize_pos⟩

/-- Where no fragment covers a byte, none covers any byte of its chunk. -/
theorem Memory.not_covered_of_same_chunk {m : Memory} (h : m.wf) {a b : Nat} (hb : ¬ m.covered b)
    (h1 : chunkStart m.fragmentSize b ≤ a) (h2 : a < chunkStart m.fragmentSize b + m.fragmentSize) :
    ¬ m.covered a := by
  rw [Memory.covered_iff_chunkStart_mem h] at hb ⊢
  rwa [chunkStart_eq_of_mem (chunkStart_mod _ _) h1 h2]

/-- Settles O39: the chunk of a byte that no fragment covers meets no fragment, so it reads `INIT_BYTE`. -/
theorem byteWriteAllocatesTheAlignedChunk : Obligations.ByteWriteAllocatesTheAlignedChunk := by
  intro m b v hwf
  have ⟨_, _, _, hasc, _⟩ := hwf
  refine ⟨allocate_of_covered hasc, fun hno => ?_, Memory.byteRead_byteWrite_self hwf b v,
    fun a ha => Memory.byteRead_byteWrite_ne m v ha⟩
  have hmask : chunkStart m.fragmentSize b.toNat =
      (b &&& ~~~(BitVec.ofNat 17 (m.fragmentSize - 1))).toNat := chunkStart_eq_mask m.fragLog b
  rw [← hmask]
  obtain ⟨before, after, hfs, hbefore, hafter, hnew⟩ := allocate_of_not_covered hasc hno
  refine ⟨before, after, hfs, hbefore, hafter, hnew, fun a h1 h2 ha => ?_⟩
  rw [Memory.byteRead_byteWrite_ne m v ha]
  exact Memory.byteRead_of_not_covered hwf (Memory.not_covered_of_same_chunk hwf hno h1 h2)

/-! ### A program stored at `pc` -/

theorem add_one_add_ofNat (a : Word) (k : Nat) :
    a + 1 + BitVec.ofNat 16 k = a + BitVec.ofNat 16 (k + 1) := by
  rw [BitVec.add_assoc, BitVec.add_comm 1, BitVec.ofNat_add]; rfl

/-- Addresses wrap modulo 2^16 only. -/
theorem ne_add_ofNat {a : Word} {k : Nat} (h0 : 0 < k) (hk : k < 2 ^ 16) :
    a ≠ a + BitVec.ofNat 16 k := by
  intro h
  have h := congrArg BitVec.toNat (BitVec.self_eq_add_right.1 h)
  rw [BitVec.toNat_ofNat, Nat.mod_eq_of_lt hk] at h
  exact absurd h (Nat.ne_of_gt h0)

theorem Memory.readWord_writeWords_of_ne (m : Memory) {a b : Word} {ws : List Word}
    (h : ∀ k < ws.length, b ≠ a + BitVec.ofNat 16 k) :
    (m.writeWords a ws).readWord b = m.readWord b := by
  induction ws generalizing m a with
  | nil => rfl
  | cons w ws ih =>
    have hb : b ≠ a := by simpa using h 0 (Nat.succ_pos _)
    rw [Memory.writeWords, ih (m.writeWord a w) fun k hk => ?_, Memory.readWord_writeWord_ne m w hb]
    rw [add_one_add_ofNat]
    exact h (k + 1) (Nat.succ_lt_succ hk)

/-- Words written one after another are read back, as long as they do not come round to the first again. -/
theorem Memory.readWord_writeWords {m : Memory} (hwf : m.wf) {a : Word} {ws : List Word}
    (hlen : ws.length ≤ 2 ^ 16) :
    HoldsWords (fun k => (m.writeWords a ws).readWord (a + BitVec.ofNat 16 k)) ws := by
  induction ws generalizing m a with
  | nil => exact fun k hk => absurd hk (Nat.not_lt_zero k)
  | cons w ws ih =>
    intro k hk
    show ((m.writeWord a w).writeWords (a + 1) ws).readWord (a + BitVec.ofNat 16 k) = (w :: ws)[k]
    cases k with
    | zero =>
      rw [BitVec.add_zero, Memory.readWord_writeWords_of_ne _ fun k hk => ?_,
        Memory.readWord_writeWord_self hwf]
      · rfl
      · rw [add_one_add_ofNat]
        exact ne_add_ofNat k.succ_pos (lt_of_lt_of_le (Nat.succ_lt_succ hk) hlen)
    | succ k =>
      rw [← add_one_add_ofNat]
      exact ih (Memory.writeWord_wf hwf a w) (Nat.le_of_succ_le hlen) k (Nat.lt_of_succ_lt_succ hk)

/-- Where memory holds the words of a well-formed instruction from `pc` on, it is the one fetched. -/
theorem State.fetch_of_stored {i : Instr} {s : State} (hi : i.wellFormed = true)
    (h : HoldsWords (fun k => s.mem.readWord (s.pc + BitVec.ofNat 16 k)) (encode i)) : s.fetch = i := by
  have hdecode := decode_of_encode hi h
  rw [BitVec.add_zero] at hdecode
  exact hdecode

/-- Settles O10: the words stored at `pc` are read back, and decoding undoes encoding. -/
theorem placedInstructionRunsNext : Obligations.PlacedInstructionRunsNext := by
  intro i s hi hwf
  have hlen : (encode i).length ≤ 2 ^ 16 := (encode_length_le i).trans (by decide)
  have hfetch : (s.placeAtPc (encode i)).fetch = i :=
    State.fetch_of_stored hi (Memory.readWord_writeWords hwf hlen)
  rw [step, hfetch]

end Sys2Proof.Machine
end

section
/-! PROOFS. What every step keeps of memory and of the parameters, and what no step can see of memory. -/

namespace Sys2Proof.Machine

/-! ### Canonical form and fragments -/

/-- Settles O45: a step writes at most one word, and a word write keeps the canonical form. -/
theorem stepKeepsMemoryCanonical : Obligations.StepKeepsMemoryCanonical := step_keeps_wf

/-- Settles O46: a fresh memory lists nothing. -/
theorem resetMemoryIsCanonical : Obligations.ResetMemoryIsCanonical := Memory.fresh_wf _ _

/-- Settles O49: a step writes at most one word, and a word write only splices fragments in. -/
theorem stepNeverFreesFragments : Obligations.StepNeverFreesFragments := by
  intro s t h
  rcases exec_writesAtMostOneWord h with hm | ⟨a, v, hm⟩
  · rw [hm]; exact ⟨List.Sublist.refl _, rfl⟩
  · rw [hm]; exact ⟨Memory.sublist_writeWord_fragments _ a v, rfl⟩

/-! ### The parameters -/

theorem ParamsKept.refl (s : State) : ParamsKept s s := ⟨rfl, rfl, rfl, rfl⟩

theorem ParamsKept.trans {s t u : State} (h : ParamsKept s t) (h' : ParamsKept t u) : ParamsKept s u := by
  obtain ⟨hd, hp, hi, hl⟩ := h
  obtain ⟨hd', hp', hi', hl'⟩ := h'
  exact ⟨hd'.trans hd, hp'.trans hp, hi'.trans hi, hl'.trans hl⟩

theorem State.writeLoc_paramsKept (s : State) (loc : Location) (v : Word) :
    ParamsKept s (s.writeLoc loc v) := by
  cases loc <;> exact ⟨rfl, rfl, rfl, rfl⟩

theorem State.applyDest_paramsKept (s : State) (dst : Operand) (f : Word → Update) :
    ParamsKept s (s.applyDest dst f) := by
  cases hd : s.destLocation dst with
  | none => rw [State.applyDest_of_none f hd]; exact .refl s
  | some loc => rw [State.applyDest_of_some f hd]; exact s.writeLoc_paramsKept loc _

theorem State.popInto_paramsKept (s : State) (dst : Operand) : ParamsKept s (s.popInto dst) := by
  rw [State.popInto_eq]
  cases s.popVariant with
  | variantA => exact s.applyDest_paramsKept dst _
  | variantB =>
    show ParamsKept s (s.popWithinUpdate dst)
    unfold State.popWithinUpdate
    split
    · exact .refl s
    · exact s.dropTop.writeLoc_paramsKept _ _
  | variantC => exact s.dropTop.applyDest_paramsKept dst _

theorem Effect.paramsKept {s t : State} {i : Instr} (h : Effect s i t) : ParamsKept s t := by
  cases h with
  | jump | push | ret | cmp | setC | setIe => exact ⟨rfl, rfl, rfl, rfl⟩
  | update a hd hf => exact s.applyDest_paramsKept _ _
  | pop dst a => exact s.popInto_paramsKept dst

theorem step_paramsKept {s t : State} (h : step s = .next t) : ParamsKept s t := (step_effect h).paramsKept

theorem runReply_paramsKept {fuel : Nat} {s t : State} {p : Response}
    (h : runReply fuel s = .next (t, p)) : ParamsKept s t :=
  runReply_keeps (P := ParamsKept s) (fun _ _ hu hs => hu.trans (step_paramsKept hs)) (.refl s) h

/-- Settles O48: no case of `Effect` writes a parameter, and RESET constructs the block with
the implementation parameters it had. -/
theorem parametersChangeOnlyInReset : Obligations.ParametersChangeOnlyInReset := by
  refine ⟨⟨rfl, rfl, rfl, rfl⟩, fun s t => step_paramsKept, fun x s t p h => ?_⟩
  have of_kept (hk : ParamsKept s t) : t.strictDstMode0 = s.strictDstMode0 ∧
      t.popVariant = s.popVariant ∧ ((∀ init size, x ≠ .reset init size) → ParamsKept s t) :=
    ⟨hk.1, hk.2.1, fun _ => hk⟩
  cases x with
  | step => exact of_kept (step_paramsKept (stepReply_eq_next_iff.1 h).1)
  | run fuel => exact of_kept (runReply_paramsKept h)
  | dbgRange a n => exact of_kept ((rangeReply_eq_next h).1 ▸ .refl s)
  | reset initByte size =>
    obtain ⟨k, rfl, -⟩ := resetReply_eq_next h
    exact ⟨rfl, rfl, fun hx => absurd rfl (hx initByte size)⟩
  | wordRead | wordWrite | byteRead | byteWrite | dbgReg | dbgPc | dbgC | dbgZ =>
    cases h; exact of_kept ⟨rfl, rfl, rfl, rfl⟩

/-! ### What no step can see of memory -/

theorem Memory.readWord_congr {m n : Memory} (h : ∀ b, n.byteRead b = m.byteRead b) (a : Word) :
    n.readWord a = m.readWord a := by
  rw [Memory.readWord, Memory.readWord, h, h]

theorem Memory.byteRead_byteWrite {m : Memory} (hwf : m.wf) (a b : ByteAddr) (v : Byte) :
    (m.byteWrite b v).byteRead a = if a = b then v else m.byteRead a := by
  split
  · next h => rw [h, Memory.byteRead_byteWrite_self hwf]
  · next h => exact Memory.byteRead_byteWrite_ne m v h

/-- What a byte reads as after a write follows from what the bytes read as before it. -/
theorem Memory.byteRead_byteWrite_congr {m n : Memory} (hm : m.wf) (hn : n.wf)
    (h : ∀ b, n.byteRead b = m.byteRead b) (a : ByteAddr) (v : Byte) (b : ByteAddr) :
    (n.byteWrite a v).byteRead b = (m.byteWrite a v).byteRead b := by
  rw [Memory.byteRead_byteWrite hn, Memory.byteRead_byteWrite hm, h]

theorem Memory.byteRead_writeWord_congr {m n : Memory} (hm : m.wf) (hn : n.wf)
    (h : ∀ b, n.byteRead b = m.byteRead b) (a v : Word) (b : ByteAddr) :
    (n.writeWord a v).byteRead b = (m.writeWord a v).byteRead b :=
  Memory.byteRead_byteWrite_congr (Memory.byteWrite_wf hm _ _) (Memory.byteWrite_wf hn _ _)
    (Memory.byteRead_byteWrite_congr hm hn h _ _) _ _ b

/-- `SameButFragments`, of two states whose memories are in canonical form: a write to a memory that is not
may leave the byte reading as before it. -/
structure CanonicalSameButFragments (s t : State) : Prop where
  left : s.mem.wf
  right : t.mem.wf
  same : SameButFragments s t

/-- Two states that differ in their fragments only read alike, and every operation keeps them so. -/
theorem canonicalSameButFragments_congruence : OperationCongruence CanonicalSameButFragments := by
  constructor
  all_goals rintro s t ⟨hs, ht, hreg, hpc, hc, hz, hie, hd, hp, hb⟩
  case reg => exact hreg
  case pc => exact hpc
  case c => exact hc
  case z => exact hz
  case strictDstMode0 => exact hd
  case popVariant => exact hp
  case readWord => exact Memory.readWord_congr hb
  case setReg =>
    exact fun r v => ⟨hs, ht, fun q => by rw [State.setReg_reg, State.setReg_reg, hreg],
      hpc, hc, hz, hie, hd, hp, hb⟩
  case jump => exact fun a => ⟨hs, ht, hreg, rfl, hc, hz, hie, hd, hp, hb⟩
  case setC => exact fun b => ⟨hs, ht, hreg, hpc, rfl, hz, hie, hd, hp, hb⟩
  case setZ => exact fun b => ⟨hs, ht, hreg, hpc, hc, rfl, hie, hd, hp, hb⟩
  case setIe => exact fun b => ⟨hs, ht, hreg, hpc, hc, hz, rfl, hd, hp, hb⟩
  case writeWord =>
    exact fun a v => ⟨Memory.writeWord_wf hs a v, Memory.writeWord_wf ht a v, hreg, hpc, hc, hz, hie,
      hd, hp, Memory.byteRead_writeWord_congr hs ht hb a v⟩

theorem OutcomeRel.mono {R Q : State → State → Prop} (hRQ : ∀ s t, R s t → Q s t)
    {o p : Host.Outcome State Fault Refusal} (h : OutcomeRel R o p) : OutcomeRel Q o p := by
  rcases h.cases with ⟨s, t, rfl, rfl, hst⟩ | ⟨f, rfl, rfl⟩ | ⟨q, rfl, rfl⟩
  · exact hRQ s t hst
  · exact rfl
  · exact rfl

/-- Settles O50: the operations' congruence, for byte values in canonical memories. -/
theorem stepSeesOnlyByteValues : Obligations.StepSeesOnlyByteValues := fun _ _ hs ht h =>
  (canonicalSameButFragments_congruence.step ⟨hs, ht, h⟩).mono fun _ _ h' => h'.same

end Sys2Proof.Machine
end

section
/-! PROOFS. The encoding: the words of a decoded instruction by operand class, and what a word's decoding
depends on. -/

namespace Sys2Proof.Machine

/-! ### Encoding after decoding -/

/-- The words that the fields of `w`, followed by `e1` and `e2`, are encoded with again: the operands are
those of the opcode's class (30_encoding.md R75). -/
def wordsOfFields (w e1 e2 : Word) : List Word :=
  let op := opcodeField w
  if op.toNat ∈ opcodesSD then encodeSD op (sourceOf w e1) (destAfterSource w e1 e2)
  else if op.toNat = 4 then encodeSS op (sourceOf w e1) (secondSource w e1 e2)
  else if op.toNat ∈ opcodesD then encodeD op (destOf w e1)
  else if op.toNat ∈ opcodesS then encodeS op (sourceOf w e1)
  else encodeN op

/-- The 32 opcodes, each in its class. -/
theorem encode_decode (w e1 e2 : Word) : encode (decode w e1 e2) = wordsOfFields w e1 e2 := by
  rw [decode, wordsOfFields]
  generalize opcodeField w = op
  obtain ⟨op⟩ := op
  fin_cases op <;> rfl

/-- Settles O6: the encoding of every class begins with an instruction word of the word's opcode. -/
theorem opcodeFieldSelectsTheInstruction : Obligations.OpcodeFieldSelectsTheInstruction := by
  intro w e1 e2
  rw [encode_decode, wordsOfFields]
  split_ifs <;> exact opcodeField_instrWord _ _ _ _ _

/-! ### Well-formedness -/

theorem destOperand_wellFormedDest (m : BitVec 2) (r : RegNo) (e : Word) :
    (destOperand m r e).wellFormedDest = true := by
  unfold destOperand
  split_ifs <;> rfl

/-- Only the operand that an instruction writes can be ill-formed. -/
theorem wellFormed_of_dest? {i : Instr} (h : ∀ dst, i.dest? = some dst → dst.wellFormedDest = true) :
    i.wellFormed = true := by
  cases i with
  | copy _ dst | add _ dst | sub _ dst | and _ dst | or _ dst | xor _ dst => exact h dst rfl
  | inc dst | dec dst | shl dst | shr dst | rtl dst | rtr dst | pop dst => exact h dst rfl
  | _ => rfl

/-- Settles O3: a destination comes from the destination fields, whose mode 0 carries no value. -/
theorem decodeGivesWellFormedInstruction : Obligations.DecodeGivesWellFormedInstruction := by
  intro w e1 e2
  refine wellFormed_of_dest? fun dst h => ?_
  obtain ⟨-, e, rfl⟩ := dest?_decode h
  exact destOperand_wellFormedDest _ _ e

/-! ### Length -/

theorem encode_length (i : Instr) : (encode i).length = i.length := by
  cases i with
  | copy src dst | add src dst | sub src dst | and src dst | or src dst | xor src dst =>
    exact (Laws.EncodedWords.of_sd _ src dst _ rfl rfl).1
  | cmp src dst => exact (Laws.EncodedWords.of_ss _ src dst _ rfl rfl).1
  | inc dst | dec dst | shl dst | shr dst | rtl dst | rtr dst | pop dst =>
    exact (Laws.EncodedWords.of_d _ dst _ rfl rfl).1
  | call src | push src | jmp src | jz src | jnz src | jc src | jnc src =>
    exact (Laws.EncodedWords.of_s _ src _ rfl rfl).1
  | _ => rfl

theorem sourceWords_sourceOperand_length (m : BitVec 2) (r : RegNo) (e : Word) :
    (sourceOperand m r e).sourceWords.length = sourceExt m := by
  rw [← sourceExt_mode, mode_sourceOperand]

theorem destWords_destOperand_length (m : BitVec 2) (r : RegNo) (e : Word) :
    (destOperand m r e).destWords.length = destExt m := by
  rw [← destExt_mode, mode_destOperand]

theorem wordsOfFields_length (w e1 e2 : Word) : (wordsOfFields w e1 e2).length = lengthOfWord w := by
  rw [wordsOfFields, lengthOfWord]
  split_ifs <;>
    simp only [encodeSD, encodeSS, encodeD, encodeS, encodeN, List.length_cons, List.length_append,
      List.length_nil, sourceOf, destOf, destAfterSource, secondSource, sourceWords_sourceOperand_length,
      destWords_destOperand_length] <;>
    omega

/-- Settles O7: the length of an instruction is that of its encoding. -/
theorem lengthFollowsFromTheWord : Obligations.LengthFollowsFromTheWord := by
  intro w e1 e2
  rw [← encode_length, encode_decode, wordsOfFields_length]

/-! ### Decoding after encoding -/

theorem wordsOfBytes_bytesOfWords_append (ws : List Word) (rest : List Byte) :
    wordsOfBytes (bytesOfWords ws ++ rest) = ws ++ wordsOfBytes rest := by
  induction ws with
  | nil => rfl
  | cons w ws ih =>
    simp only [bytesOfWords, List.cons_append, wordsOfBytes, wordOfBytes_high_low, ih]

theorem holdsWords_getD_append (ws rest : List Word) (d : Word) :
    HoldsWords (fun k => (ws ++ rest).getD k d) ws := by
  intro k hk
  simp [List.getD_eq_getElem?_getD, List.getElem?_append_left hk, hk]

/-- The head of a list of words decodes to the instruction of its first three words, if they hold it. -/
theorem decodeWords_of_decode {ws : List Word} {i : Instr}
    (h : decode (ws.getD 0 0) (ws.getD 1 0) (ws.getD 2 0) = i) (hpos : 0 < ws.length)
    (hlen : i.length ≤ ws.length) : decodeWords ws = .ok (i, ws.drop i.length) := by
  cases ws with
  | nil => exact absurd hpos (Nat.lt_irrefl 0)
  | cons w rest =>
    subst h
    exact if_pos hlen

theorem encode_length_pos (i : Instr) : 0 < (encode i).length := by
  cases i <;> exact Nat.succ_pos _

theorem decode_encode_append {i : Instr} (hi : i.wellFormed = true) (rest : List Word) :
    decode ((encode i ++ rest).getD 0 0) ((encode i ++ rest).getD 1 0) ((encode i ++ rest).getD 2 0) = i :=
  decode_of_encode (f := fun k => (encode i ++ rest).getD k 0) hi (holdsWords_getD_append _ rest 0)

theorem decodeWords_encode_append {i : Instr} (hi : i.wellFormed = true) (rest : List Word) :
    decodeWords (encode i ++ rest) = .ok (i, rest) := by
  have hle : (encode i).length ≤ (encode i ++ rest).length := by
    rw [List.length_append]; exact Nat.le_add_right _ _
  rw [decodeWords_of_decode (decode_encode_append hi rest) ((encode_length_pos i).trans_le hle)
    (encode_length i ▸ hle), ← encode_length, List.drop_left]

/-- Settles O2: the words of the bytes are the encoding's and those after it, and the bytes that decoding
drops are the encoding's. -/
theorem decodeBytesUndoesEncodeBytes : Obligations.DecodeBytesUndoesEncodeBytes := by
  intro i rest hi
  have hdrop : (encodeBytes i ++ rest).drop (2 * i.length) = rest := by
    rw [← encode_length, ← bytesOfWords_length]
    exact List.drop_left
  rw [decodeBytes, encodeBytes, wordsOfBytes_bytesOfWords_append, decodeWords_encode_append hi]
  exact congrArg (fun bs => Except.ok (i, bs)) hdrop

/-- A well-formed instruction is determined by its encoding. -/
theorem encode_inj {i j : Instr} (hi : i.wellFormed = true) (hj : j.wellFormed = true)
    (h : encode i = encode j) : i = j := by
  rw [← decode_encode_append hi [], h, decode_encode_append hj []]

/-! ### What decoding depends on -/

theorem mode_cases : ∀ m : BitVec 2, m = 0 ∨ m = 1 ∨ m = 2 ∨ m = 3 := by decide

section
variable {m : BitVec 2} {r q : RegNo} {e f : Word}

/-- A source uses its register field in modes 1 and 3 only, and a following word in modes 0 and 2 only
(30_encoding.md R72). -/
theorem sourceOperand_congr (hreg : m = 1 ∨ m = 3 → r = q) (hext : sourceExt m = 1 → e = f) :
    sourceOperand m r e = sourceOperand m q f := by
  rcases mode_cases m with rfl | rfl | rfl | rfl
  · rw [hext rfl]; rfl
  · rw [hreg (.inl rfl)]; rfl
  · rw [hext rfl]; rfl
  · rw [hreg (.inr rfl)]; rfl

/-- A destination uses its register field in modes 1 and 3 only, and a following word in mode 2 only
(30_encoding.md R72, R81). -/
theorem destOperand_congr (hreg : m = 1 ∨ m = 3 → r = q) (hext : destExt m = 1 → e = f) :
    destOperand m r e = destOperand m q f := by
  rcases mode_cases m with rfl | rfl | rfl | rfl
  · rfl
  · rw [hreg (.inl rfl)]; rfl
  · rw [hext rfl]; rfl
  · rw [hreg (.inr rfl)]; rfl

end

section
variable {w v e f e1 e2 f1 f2 : Word}

theorem sourceOf_congr (hmode : srcMode w = srcMode v)
    (hreg : srcMode w = 1 ∨ srcMode w = 3 → srcReg w = srcReg v)
    (hext : sourceExt (srcMode w) = 1 → e = f) : sourceOf w e = sourceOf v f := by
  rw [sourceOf, sourceOf, ← hmode]
  exact sourceOperand_congr hreg hext

theorem destOf_congr (hmode : dstMode w = dstMode v)
    (hreg : dstMode w = 1 ∨ dstMode w = 3 → dstReg w = dstReg v)
    (hext : destExt (dstMode w) = 1 → e = f) : destOf w e = destOf v f := by
  rw [destOf, destOf, ← hmode]
  exact destOperand_congr hreg hext

theorem secondSource_congr (hmode : dstMode w = dstMode v)
    (hreg : dstMode w = 1 ∨ dstMode w = 3 → dstReg w = dstReg v)
    (hext : sourceExt (dstMode w) = 1 → wordAfterSource w e1 e2 = wordAfterSource v f1 f2) :
    secondSource w e1 e2 = secondSource v f1 f2 := by
  rw [secondSource, secondSource, ← hmode]
  exact sourceOperand_congr hreg hext

/-- The second of two operands uses the first following word or the second, as the first operand leaves it
(30_encoding.md R74); `n` is the number of following words it uses itself. -/
theorem wordAfterSource_congr {n : Nat} (hmode : srcMode w = srcMode v)
    (h1 : 2 ≤ 1 + sourceExt (srcMode w) + n → e1 = f1) (h2 : 3 ≤ 1 + sourceExt (srcMode w) + n → e2 = f2)
    (hn : n = 1) : wordAfterSource w e1 e2 = wordAfterSource v f1 f2 := by
  rw [wordAfterSource, wordAfterSource, ← hmode]
  split
  · exact h2 (by omega)
  · exact h1 (by omega)

end

/-- Settles O5: in each class, the operands that decoding finds are equal, so the two encodings are. -/
theorem undecodedFieldsChangeNothing : Obligations.UndecodedFieldsChangeNothing := by
  intro w v e1 e2 f1 f2 hop hsm hsr hdm hdr he1 he2
  refine encode_inj (decodeGivesWellFormedInstruction _ _ _) (decodeGivesWellFormedInstruction _ _ _) ?_
  rw [encode_decode, encode_decode, wordsOfFields, wordsOfFields, ← hop]
  simp only [lengthOfWord] at he1 he2
  split_ifs at he1 he2 ⊢ with hsd hss hd hs
  · have hsrc : decodesSource (opcodeField w).toNat := .inl hsd
    have hdst : decodesDest (opcodeField w).toNat := .inl hsd
    rw [sourceOf_congr (hsm hsrc) (hsr hsrc) fun _ => he1 (by omega)]
    exact congrArg _ (destOf_congr (hdm hdst) (hdr hdst) (wordAfterSource_congr (hsm hsrc) he1 he2))
  · have hsrc : decodesSource (opcodeField w).toNat := .inr (.inl hss)
    have hdst : decodesDest (opcodeField w).toNat := .inr (.inl hss)
    rw [sourceOf_congr (hsm hsrc) (hsr hsrc) fun _ => he1 (by omega),
      secondSource_congr (hdm hdst) (hdr hdst) (wordAfterSource_congr (hsm hsrc) he1 he2)]
  · have hdst : decodesDest (opcodeField w).toNat := .inr (.inr hd)
    rw [destOf_congr (hdm hdst) (hdr hdst) fun _ => he1 (by omega)]
  · have hsrc : decodesSource (opcodeField w).toNat := .inr (.inr hs)
    rw [sourceOf_congr (hsm hsrc) (hsr hsrc) fun _ => he1 (by omega)]
  · rfl

/-! ### The reserved bit and the test vectors -/

/-- A field below bit 15 does not hold it. -/
theorem extractLsb'_xor_reservedBit (w : Word) {start len : Nat} (h : start + len ≤ 15) :
    (w ^^^ 0x8000).extractLsb' start len = w.extractLsb' start len := by
  apply BitVec.eq_of_getLsbD_eq
  intro k hk
  have hne : 15 ≠ start + k := by omega
  have hbit : (BitVec.twoPow 16 15).getLsbD (start + k) = false := by
    simp [BitVec.getLsbD_twoPow, hne]
  rw [BitVec.getLsbD_extractLsb', BitVec.getLsbD_extractLsb', BitVec.getLsbD_xor,
    show (0x8000 : Word) = BitVec.twoPow 16 15 from rfl, hbit, Bool.xor_false]

/-- Settles O4, as a case of O5: no field holds bit 15. -/
theorem reservedBitChangesNothing : Obligations.ReservedBitChangesNothing := by
  intro w e1 e2 s
  have h : decode (w ^^^ 0x8000) e1 e2 = decode w e1 e2 :=
    undecodedFieldsChangeNothing _ _ _ _ _ _ (extractLsb'_xor_reservedBit w (by decide))
      (fun _ => extractLsb'_xor_reservedBit w (by decide))
      (fun _ _ => congrArg BitVec.toFin (extractLsb'_xor_reservedBit w (by decide)))
      (fun _ => extractLsb'_xor_reservedBit w (by decide))
      (fun _ _ => congrArg BitVec.toFin (extractLsb'_xor_reservedBit w (by decide)))
      (fun _ => rfl) (fun _ => rfl)
  exact ⟨h, by rw [h]⟩

/-- Settles O1, by evaluation. -/
theorem vectorWordsDecode : Obligations.VectorWordsDecode := by
  unfold Obligations.VectorWordsDecode
  decide

end Sys2Proof.Machine
end

section
/-! PROOFS. Operands: what a source operand is worth, which location a destination operand names, and which
instruction the words at `pc` make a step execute. -/

namespace Sys2Proof.Machine

/-- Settles O14, mode by mode. -/
theorem sourceOperandValues : Obligations.SourceOperandValues := by
  intro w e s
  refine ⟨fun h => ?_, fun h => ?_, fun h => ?_, fun h => ?_⟩ <;> rw [sourceOf, h] <;> exact ⟨rfl, rfl⟩

/-- Settles O15, mode by mode. -/
theorem destinationOperandLocations : Obligations.DestinationOperandLocations := by
  intro w e s
  refine ⟨fun h => ?_, fun h => ?_, fun h => ?_, fun h => ?_⟩ <;> rw [destOf, h] <;> exact ⟨rfl, rfl⟩

/-- Settles O8: the instruction fetched is what the three words at `pc` decode to. -/
theorem stepExecutesTheDecodedInstruction : Obligations.StepExecutesTheDecodedInstruction := by
  intro s i _ h
  have hfetch : s.fetch = i := h
  rw [step, hfetch]

/-- Settles O9: decoding undoes encoding, so the instruction fetched is the one stored. -/
theorem stepRunsTheStoredInstruction : Obligations.StepRunsTheStoredInstruction := by
  intro i s hi h
  rw [step, State.fetch_of_stored hi h]

/-! ### The strict fault -/

/-- The instructions with a destination are those of the classes `SD` and `D` (30_encoding.md R75). -/
theorem dest?_isSome_iff (i : Instr) :
    i.dest?.isSome ↔ i.opcode ∈ opcodesSD ∨ i.opcode ∈ opcodesD := by
  cases i <;> simp [Instr.dest?, Instr.opcode, opcodesSD, opcodesD]

theorem exec_fault_iff {i : Instr} {s : State} {f : Fault} :
    exec i s = .fault f ↔ ∃ dst, i.dest? = some dst ∧ s.strictDstMode0 = true ∧ dst.mode = 0 ∧
      f = .invalidDestinationMode s.pc (s.mem.readWord s.pc) := by
  cases hd : i.dest? with
  | none =>
    obtain ⟨t, ht, -⟩ := exec_of_no_dest s hd
    simp [ht]
  | some dst =>
    obtain ⟨t, ht, -⟩ := exec_of_dest? s hd
    simp [ht, State.checkDest_fault_iff]

/-- Settles O13: only the check of a fetched destination faults, and its mode is the word's. -/
theorem stepFaultsExactlyAtStrictModeZero : Obligations.StepFaultsExactlyAtStrictModeZero := by
  intro s f
  rw [step, exec_fault_iff]
  constructor
  · rintro ⟨dst, hd, hstrict, hmode, hf⟩
    obtain ⟨hop, e, rfl⟩ := dest?_decode hd
    exact ⟨hstrict, hop, (mode_destOperand _ _ _).symm.trans hmode, hf⟩
  · rintro ⟨hstrict, hop, hmode, hf⟩
    rw [← s.fetch_opcode, ← dest?_isSome_iff, Option.isSome_iff_exists] at hop
    obtain ⟨dst, hd⟩ := hop
    obtain ⟨-, e, rfl⟩ := dest?_decode hd
    exact ⟨_, hd, hstrict, (mode_destOperand _ _ _).trans hmode, hf⟩

end Sys2Proof.Machine
end

section
/-! PROOFS. The spec's pseudocode of a step, which moves `pc` on as it fetches each word, and the machine's
step, which decodes first. After `n` words the pseudocode is in the state `s.advance n`, so each of its
operations is the machine's on `s`, with the words it has fetched by then counted in the advance. -/

namespace Sys2Proof.Machine

/-! ### Checking a destination -/

theorem State.checkDest_of_none {s : State} {dst : Operand} (next : State)
    (h : s.destLocation dst = none) :
    s.checkDest dst next =
      if s.strict = true then .fault (.invalidDestinationMode s.pc (s.readWord s.pc)) else .next next := by
  simp only [State.checkDest, (s.destLocation_eq_none_iff dst).1 h, and_true]

theorem State.checkDest_of_some {s : State} {dst : Operand} {loc : Location} (next : State)
    (h : s.destLocation dst = some loc) : s.checkDest dst next = .next next := by
  have hmode : dst.mode ≠ 0 := mt (s.destLocation_eq_none_iff dst).2 (by simp [h])
  exact if_neg fun hs => hmode hs.2

theorem State.jumpIf_not (s : State) (b : Bool) (src : Operand) :
    s.jumpIf (!b) src = .next (if b = false then s.jump (s.source src) else s.advance (lengthS src)) := by
  cases b <;> rfl

namespace Pseudocode

/-! ### Operand resolution -/

section
variable {s : State} {n : Nat} {m : BitVec 2} {r : RegNo} {src dst : Operand}

theorem fetchWord_advance :
    fetchWord (s.advance n) = (s.readWord (s.pc + BitVec.ofNat 16 n), s.advance (n + 1)) := by
  have hpc : s.pc + BitVec.ofNat 16 n + 1 = s.pc + BitVec.ofNat 16 (n + 1) := by
    rw [BitVec.add_assoc, BitVec.ofNat_add]; rfl
  exact congrArg (fun a => (s.readWord (s.pc + BitVec.ofNat 16 n), s.jump a)) hpc

/-- `ResolveSource` gives the value of the decoded operand and consumes its extension words
(40_operands.md R102). -/
theorem resolveSource_advance (h : sourceOperand m r (s.readWord (s.pc + BitVec.ofNat 16 n)) = src) :
    resolveSource m r (s.advance n) = (s.source src, s.advance (n + src.sourceWords.length)) := by
  subst h
  rcases mode_cases m with rfl | rfl | rfl | rfl
  · exact fetchWord_advance
  · rfl
  · show ((fetchWord (s.advance n)).2.readWord (fetchWord (s.advance n)).1, (fetchWord (s.advance n)).2) = _
    rw [fetchWord_advance]; rfl
  · rfl

/-- `DestLocation` gives the location of the decoded operand and consumes its extension words
(40_operands.md R103). -/
theorem destLocation_advance (h : destOperand m r (s.readWord (s.pc + BitVec.ofNat 16 n)) = dst) :
    destLocation m r (s.advance n) = (s.destLocation dst, s.advance (n + dst.destWords.length)) := by
  subst h
  rcases mode_cases m with rfl | rfl | rfl | rfl
  · rfl
  · rfl
  · show (some (Location.mem (fetchWord (s.advance n)).1), (fetchWord (s.advance n)).2) = _
    rw [fetchWord_advance]; rfl
  · rfl

/-! ### Destinations -/

theorem writeLoc_advance (loc : Location) (v : Word) :
    (s.advance n).writeLoc loc v = (s.writeLoc loc v).advance n := by
  cases loc <;> rfl

/-- `ApplyDest` is the machine's check and update of the decoded destination, whatever comes after
(40_operands.md R104 to R106). -/
theorem applyDest_advance (f : Word → Update) (after : State → State)
    (h : destOperand m r (s.readWord (s.pc + BitVec.ofNat 16 n)) = dst) :
    applyDest s.pc (s.readWord s.pc) m r f after (s.advance n) =
      s.checkDest dst (after ((s.applyDest dst f).advance (n + dst.destWords.length))) := by
  rw [applyDest, destLocation_advance h]
  cases hloc : s.destLocation dst with
  | none => rw [State.checkDest_of_none _ hloc, State.applyDest_of_none f hloc]; rfl
  | some loc =>
    rw [State.checkDest_of_some _ hloc, State.applyDest_of_some f hloc]
    simp only [State.advance_readLoc, writeLoc_advance]
    rfl

/-- Variant `B` of `pop` fixes the location first, as the machine does (44_control_stack.md R193). -/
theorem popB_advance (h : destOperand m r (s.readWord (s.pc + BitVec.ofNat 16 n)) = dst) :
    popB s.pc (s.readWord s.pc) m r (s.advance n) =
      s.checkDest dst ((s.popWithinUpdate dst).advance (n + dst.destWords.length)) := by
  rw [popB, destLocation_advance h, State.popWithinUpdate]
  cases hloc : s.destLocation dst with
  | none => rw [State.checkDest_of_none _ hloc]; rfl
  | some loc =>
    rw [State.checkDest_of_some _ hloc]
    exact congrArg Host.Outcome.next (writeLoc_advance (s := s.dropTop) loc s.top)

end

/-! ### Opcodes, by operand class (30_encoding.md R75) -/

section
variable {s : State} {w e1 e2 : Word} (h1 : s.readWord (s.pc + 1) = e1)
include h1

theorem resolveSource_first :
    resolveSource (srcMode w) (srcReg w) (s.advance 1) =
      (s.source (sourceOf w e1), s.advance (lengthS (sourceOf w e1))) :=
  resolveSource_advance (congrArg (sourceOperand _ _) h1)

theorem opS_advance (act : Word → State → State) :
    opS act w (s.advance 1) =
      .next (act (s.source (sourceOf w e1)) (s.advance (lengthS (sourceOf w e1)))) := by
  rw [opS, resolveSource_first h1]

/-- The word after the source's own is the one that decoding leaves for the destination fields
(30_encoding.md R74). -/
theorem readWord_after_source (h2 : s.readWord (s.pc + 2) = e2) :
    s.readWord (s.pc + BitVec.ofNat 16 (lengthS (sourceOf w e1))) = wordAfterSource w e1 e2 := by
  rw [lengthS, sourceOf, sourceWords_sourceOperand_length, wordAfterSource]
  rcases mode_cases (srcMode w) with h | h | h | h <;> rw [h]
  · exact h2
  · exact h1
  · exact h2
  · exact h1

theorem opCmp_advance (h2 : s.readWord (s.pc + 2) = e2) :
    opCmp w (s.advance 1) = execCmp (sourceOf w e1) (secondSource w e1 e2) s := by
  rw [opCmp, resolveSource_first h1,
    resolveSource_advance (congrArg (sourceOperand _ _) (readWord_after_source h1 h2))]
  rfl

variable (hw : s.readWord s.pc = w)
include hw

theorem opD_advance (f : Word → Update) : opD f s.pc w (s.advance 1) = s.applyD f (destOf w e1) := by
  subst hw
  exact applyDest_advance f id (congrArg (destOperand _ _) h1)

/-- The three variants of `pop` (44_control_stack.md R193): `C` increments `r7` first, which moves neither
the words at `pc` nor the strict mode. -/
theorem pop_advance :
    pop s.pc w (dstMode w) (dstReg w) (s.advance 1) = execPop (destOf w e1) s := by
  have h := congrArg (destOperand (dstMode w) (dstReg w)) h1
  subst hw
  rw [execPop, State.popInto_eq, pop, show (s.advance 1).popOrder = s.popVariant from rfl]
  cases s.popVariant with
  | variantA => exact applyDest_advance (copyUpdate s.top) State.dropTop h
  | variantB => exact popB_advance h
  | variantC => exact applyDest_advance (s := s.dropTop) (copyUpdate s.top) id h

theorem opSD_advance (h2 : s.readWord (s.pc + 2) = e2) (f : Word → Word → Update) :
    opSD f s.pc w (s.advance 1) = s.applySD f (sourceOf w e1) (destAfterSource w e1 e2) := by
  rw [opSD, resolveSource_first h1]
  subst hw
  exact applyDest_advance _ id (congrArg (destOperand _ _) (readWord_after_source h1 h2))

/-- `Execute`, opcode by opcode, runs the instruction that the three words decode to. -/
theorem execute_advance (h2 : s.readWord (s.pc + 2) = e2) :
    execute (opcodeField w).toNat s.pc w (s.advance 1) = exec (decode w e1 e2) s := by
  have hlt := (opcodeField w).isLt
  rw [decode]
  generalize (opcodeField w).toNat = op at hlt ⊢
  match op, hlt with
  | 1, _ | 2, _ | 3, _ | 5, _ | 6, _ | 7, _ => exact opSD_advance h1 hw h2 _
  | 4, _ => exact opCmp_advance h1 h2
  | 8, _ | 9, _ | 10, _ | 11, _ | 12, _ | 13, _ => exact opD_advance h1 hw _
  | 18, _ => exact pop_advance h1 hw
  | 14, _ | 17, _ | 19, _ | 20, _ | 22, _ => rw [execute, opS_advance h1]; rfl
  | 21, _ | 23, _ => rw [execute, opS_advance h1]; exact (s.jumpIf_not _ _).symm
  | 0, _ | 15, _ | 16, _ | 24, _ | 25, _ | 26, _ | 27, _ | 28, _ | 29, _ | 30, _ | 31, _ => rfl
  | op + 32, hlt => omega

end

/-- Settles O11: after the instruction word, the pseudocode stands at `s.advance 1`. -/
theorem stepIsTheSpecsPseudocode : Obligations.StepIsTheSpecsPseudocode := fun _ =>
  (execute_advance rfl rfl rfl).symm

end Pseudocode

end Sys2Proof.Machine
end

section
/-! PROOFS. Move and arithmetic: how an instruction with a destination runs, from the update it makes; and
the value and the flags that `add`, `sub` and `cmp` compute. -/

namespace Sys2Proof.Machine

/-! ### An instruction that updates a destination -/

/-- An instruction that makes the update `f` of its destination runs as `R` says, where `R` holds of the
old value, the new value, and every state with the flags of the update (40_operands.md R104 to R106). -/
theorem runsAtDestination_of_update {i : Instr} {dst : Operand} {n : Nat} {s : State}
    {f : Word → Update} {R : Word → Word → State → Prop} (hwf : s.mem.wf)
    (hexec : exec i s = s.checkDest dst ((s.applyDest dst f).advance n))
    (hR : ∀ (cur : Word) (t : State), t.c = (f cur).c.getD s.c → t.z = (f cur).z.getD s.z →
      R cur (f cur).value t) : RunsAtDestination i dst n s R := by
  unfold RunsAtDestination
  cases hloc : s.destLocation dst with
  | some loc =>
    rw [State.checkDest_of_some _ hloc, State.applyDest_of_some f hloc] at hexec
    refine ⟨_, hexec, ?_, by simp, (s.writeLoc_frame loc _).congr rfl rfl rfl rfl rfl⟩
    rw [State.advance_readLoc, State.writeFlags_readLoc, State.readLoc_writeLoc_self hwf]
    exact hR _ _ (by simp) (by simp)
  | none =>
    rw [State.checkDest_of_none _ hloc, State.applyDest_of_none f hloc] at hexec
    dsimp only
    split
    case isTrue hstrict => exact hexec.trans (if_pos hstrict)
    case isFalse hstrict =>
      exact ⟨_, hexec.trans (if_neg hstrict), rfl, ⟨rfl, rfl⟩, .of_eq rfl rfl rfl rfl rfl⟩

/-! ### What `add`, `sub` and `cmp` compute -/

section
variable (c0 : Bool) (v cur : Word)

theorem zeroFlag_eq : zeroFlag v = decide (v.toNat = 0) := by
  rw [zeroFlag, beq_eq_decide]
  exact decide_eq_decide.2 BitVec.toNat_eq

theorem addUpdate_value_toNat :
    (addUpdate c0 v cur).value.toNat = (cur.toNat + v.toNat + flagNat c0) % 65536 :=
  BitVec.toNat_ofNat _ 16

theorem addUpdate_z :
    (addUpdate c0 v cur).z = some (decide ((cur.toNat + v.toNat + flagNat c0) % 65536 = 0)) := by
  rw [← addUpdate_value_toNat, ← zeroFlag_eq]
  rfl

theorem subUpdate_value_toNat :
    ((subUpdate c0 v cur).value.toNat : Int) =
      ((cur.toNat : Int) - (v.toNat : Int) - (flagNat c0 : Int)) % 65536 :=
  (congrArg Nat.cast (BitVec.toNat_ofInt _)).trans
    (Int.toNat_of_nonneg (Int.emod_nonneg _ (by decide)))

theorem subUpdate_z :
    (subUpdate c0 v cur).z =
      some (decide (((cur.toNat : Int) - (v.toNat : Int) - (flagNat c0 : Int)) % 65536 = 0)) := by
  simp only [← subUpdate_value_toNat, Int.natCast_eq_zero, ← zeroFlag_eq]
  rfl

end

theorem cmpZ_eq (a b : Word) : cmpZ a b = decide (a = b) := beq_eq_decide a b

/-! ### The statements -/

/-- Settles O16: the update of `copy` is the source, with no flag. -/
theorem copyMovesTheSource : Obligations.CopyMovesTheSource := by
  refine ⟨fun w e1 e2 h => by simp only [decode, h], fun src dst s hwf => ?_⟩
  exact runsAtDestination_of_update hwf rfl fun cur t hc hz => ⟨rfl, hc, hz⟩

/-- Settles O17: the update of `add` is the sum modulo 2^16, with the carry out. -/
theorem addStoresSumAndCarry : Obligations.AddStoresSumAndCarry := by
  refine ⟨fun w e1 e2 h => by simp only [decode, h], fun src dst s hwf => ?_⟩
  refine runsAtDestination_of_update hwf rfl fun cur t hc hz => ⟨addUpdate_value_toNat _ _ _, hc, ?_⟩
  rw [hz, addUpdate_z, Option.getD_some]

/-- Settles O18: the update of `sub` is the difference modulo 2^16, with the borrow out. -/
theorem subStoresDifferenceAndBorrow : Obligations.SubStoresDifferenceAndBorrow := by
  refine ⟨fun w e1 e2 h => by simp only [decode, h], fun src dst s hwf => ?_⟩
  refine runsAtDestination_of_update hwf rfl fun cur t hc hz => ⟨subUpdate_value_toNat _ _ _, hc, ?_⟩
  rw [hz, subUpdate_z, Option.getD_some]

/-- Settles O19: `cmp` sets the two flags and `pc`, for every pair of operands. -/
theorem cmpWritesOnlyFlags : Obligations.CmpWritesOnlyFlags := by
  refine ⟨fun w e1 e2 h => by simp only [decode, h], fun src dst s => ?_⟩
  exact ⟨_, rfl, cmpZ_eq _ _, rfl, rfl, .of_eq rfl rfl rfl rfl rfl⟩

end Sys2Proof.Machine
end

section
/-! PROOFS. Logic, increment and decrement: an instruction that writes its result and `Z`, and no carry. -/

namespace Sys2Proof.Machine

/-- An instruction that writes the result `g` of the old value, and `Z` of it, keeps `C`; what holds of every
old value and its result holds of what the location held and holds (40_operands.md R104, R107). -/
theorem runsAtDestination_of_resultZ {i : Instr} {dst : Operand} {n : Nat} {s : State}
    (g : Word → Word) {P : Word → Word → Prop} (hwf : s.mem.wf)
    (hexec : exec i s = s.checkDest dst ((s.applyDest dst fun cur => resultZ (g cur)).advance n))
    (hP : ∀ cur, P cur (g cur)) :
    RunsAtDestination i dst n s fun cur new t => P cur new ∧ t.z = decide (new = 0) ∧ t.c = s.c :=
  runsAtDestination_of_update hwf hexec fun cur _ hc hz =>
    ⟨hP cur, hz.trans (beq_eq_decide (g cur) 0), hc⟩

/-- Settles O20: each operation of words is the operation of their bits. -/
theorem logicIsBitwise : Obligations.LogicIsBitwise := by
  refine ⟨⟨?decodeAnd, ?decodeOr, ?decodeXor⟩, fun src dst s hwf => ⟨?and, ?or, ?xor⟩⟩
  case decodeAnd | decodeOr | decodeXor => exact fun w e1 e2 h => by simp only [decode, h]
  case and =>
    exact runsAtDestination_of_resultZ (· &&& s.source src) hwf rfl fun _ _ _ => BitVec.getLsbD_and
  case or =>
    exact runsAtDestination_of_resultZ (· ||| s.source src) hwf rfl fun _ _ _ => BitVec.getLsbD_or
  case xor =>
    exact runsAtDestination_of_resultZ (· ^^^ s.source src) hwf rfl fun _ _ _ => BitVec.getLsbD_xor

/-- Settles O21: `inc` adds 1 modulo 2^16, and adding 1 to what `dec` writes gives the old value. -/
theorem incAndDecStepByOne : Obligations.IncAndDecStepByOne := by
  refine ⟨⟨?decodeInc, ?decodeDec⟩, fun dst s hwf => ⟨?inc, ?dec⟩⟩
  case decodeInc | decodeDec => exact fun w e1 e2 h => by simp only [decode, h]
  case inc => exact runsAtDestination_of_resultZ (· + 1) hwf rfl fun cur => BitVec.toNat_add cur 1
  case dec =>
    refine runsAtDestination_of_resultZ (· - 1) hwf rfl fun cur => ?_
    calc ((cur - 1).toNat + 1) % 65536
        = (cur - 1 + 1).toNat := (BitVec.toNat_add (cur - 1) 1).symm
      _ = cur.toNat := congrArg BitVec.toNat (BitVec.sub_add_cancel cur 1)

end Sys2Proof.Machine
end

section
/-! PROOFS. Shifts and rotates: an instruction that writes its result, `Z` of it, and one bit of the old value
to `C`; and the bits of a word moved by one place. -/

namespace Sys2Proof.Machine

/-- An instruction that writes the result `g` of the old value, `Z` of it, and bit `k` of the old value to
`C`. `E` is what the statement says of the end bit of the result, `M` what it says of the moved bits
(40_operands.md R104, R107). -/
theorem runsAtDestination_of_resultCZ {i : Instr} {dst : Operand} {n : Nat} {s : State}
    (g : Word → Word) {k : Nat} {E M : Word → Word → Prop} (hwf : s.mem.wf)
    (hexec : exec i s =
      s.checkDest dst ((s.applyDest dst fun cur => resultCZ (g cur) (cur.getLsbD k)).advance n))
    (hE : ∀ cur, E cur (g cur)) (hM : ∀ cur, M cur (g cur)) :
    RunsAtDestination i dst n s fun cur new t =>
      E cur new ∧ M cur new ∧ t.c = cur.getLsbD k ∧ t.z = decide (new = 0) :=
  runsAtDestination_of_update hwf hexec fun cur _ hc hz =>
    ⟨hE cur, hM cur, hc, hz.trans (beq_eq_decide (g cur) 0)⟩

/-! ### The bits of a word moved by one place -/

section
variable (cur : Word) (i k : Nat)

theorem getLsbD_shiftLeft_one_zero : (cur <<< 1).getLsbD 0 = false := by simp

theorem getLsbD_shiftLeft_one_succ (h : i < 15) : (cur <<< 1).getLsbD (i + 1) = cur.getLsbD i := by
  rw [BitVec.getLsbD_shiftLeft]
  simp [show i + 1 < 16 by omega]

theorem getLsbD_shiftRight_one : (cur >>> 1).getLsbD i = cur.getLsbD (i + 1) := by
  rw [BitVec.getLsbD_ushiftRight, Nat.add_comm]

theorem getLsbD_bitWord : (bitWord cur k).getLsbD i = (decide (i = 0) && cur.getLsbD k) := by
  rw [bitWord, BitVec.getLsbD_setWidth, BitVec.getLsbD_ofBool]
  by_cases hi : i = 0 <;> simp [hi]

theorem getLsbD_bitWord_shiftLeft (h : i ≤ 15) :
    (bitWord cur k <<< 15).getLsbD i = (decide (i = 15) && cur.getLsbD k) := by
  rw [BitVec.getLsbD_shiftLeft, getLsbD_bitWord]
  by_cases hi : i = 15
  · simp [hi]
  · simp [hi, show i < 15 by omega]

end

/-! ### The statements -/

/-- Settles O22: a shift moves every bit by one place, and brings a 0 in at the free end. -/
theorem shiftsMoveBitsByOne : Obligations.ShiftsMoveBitsByOne := by
  refine ⟨⟨?decodeShl, ?decodeShr⟩, fun dst s hwf => ⟨?shl, ?shr⟩⟩
  case decodeShl | decodeShr => exact fun w e1 e2 h => by simp only [decode, h]
  case shl =>
    exact runsAtDestination_of_resultCZ (· <<< 1) hwf rfl getLsbD_shiftLeft_one_zero
      getLsbD_shiftLeft_one_succ
  case shr =>
    refine runsAtDestination_of_resultCZ (· >>> 1) hwf rfl (fun cur => ?_)
      fun cur i _ => getLsbD_shiftRight_one cur i
    rw [getLsbD_shiftRight_one]
    exact BitVec.getLsbD_of_ge cur 16 le_rfl

/-- Settles O23: a rotate is a shift with the bit shifted out put in at the free end, where the shift leaves
a 0. -/
theorem rotatesCarryTheEndBitRound : Obligations.RotatesCarryTheEndBitRound := by
  refine ⟨⟨?decodeRtl, ?decodeRtr⟩, fun dst s hwf => ⟨?rtl, ?rtr⟩⟩
  case decodeRtl | decodeRtr => exact fun w e1 e2 h => by simp only [decode, h]
  case rtl =>
    refine runsAtDestination_of_resultCZ (fun cur => cur <<< 1 ||| bitWord cur 15) hwf rfl
      (fun cur => ?_) fun cur i hi => ?_
    · rw [BitVec.getLsbD_or, getLsbD_shiftLeft_one_zero, getLsbD_bitWord]
      simp
    · rw [BitVec.getLsbD_or, getLsbD_shiftLeft_one_succ cur i hi, getLsbD_bitWord]
      simp
  case rtr =>
    refine runsAtDestination_of_resultCZ (fun cur => cur >>> 1 ||| bitWord cur 0 <<< 15) hwf rfl
      (fun cur => ?_) fun cur i hi => ?_
    · rw [BitVec.getLsbD_or, getLsbD_shiftRight_one, getLsbD_bitWord_shiftLeft cur 15 0 le_rfl]
      simp
    · rw [BitVec.getLsbD_or, getLsbD_shiftRight_one, getLsbD_bitWord_shiftLeft cur i 0 hi.le]
      simp [hi.ne]

end Sys2Proof.Machine
end

section
/-! PROOFS. Calls, the stack and jumps: a push and the word it leaves on the stack, the state that each
order of `pop` gives, and a jump that tests one flag. -/

namespace Sys2Proof.Machine

/-! ### Registers -/

theorem State.setReg_setReg (s : State) (r : RegNo) (v w : Word) :
    (s.setReg r v).setReg r w = s.setReg r w := by
  simp [State.setReg]

theorem State.setReg_reg_eq_self (s : State) (r : RegNo) : s.setReg r (s.reg r) = s := by
  simp [State.setReg, State.reg]

theorem State.writeLoc_reg_of_ne (s : State) {loc : Location} {r : RegNo} (v : Word) (h : loc ≠ .reg r) :
    (s.writeLoc loc v).reg r = s.reg r := by
  cases loc with
  | reg q => exact State.setReg_reg_ne s q r v fun e => h (congrArg Location.reg e.symm)
  | mem a => rfl

/-! ### Frames -/

/-- A frame may name more registers and words than are written. -/
theorem Frame.mono {rs rs' : List RegNo} {ws ws' : List Word} {s t : State} (h : Frame rs ws s t)
    (hrs : rs ⊆ rs') (hws : ws ⊆ ws') : Frame rs' ws' s t := by
  obtain ⟨hreg, hbyte, hie, hparams, hfrag⟩ := h
  exact ⟨fun r hr => hreg r fun h => hr (hrs h), fun b hb => hbyte b fun a ha => hb a (hws ha), hie, hparams,
    fun hnil => hfrag (List.subset_nil.1 (hnil ▸ hws))⟩

theorem Frame.trans {rs : List RegNo} {ws : List Word} {s t u : State} (h : Frame rs ws s t)
    (h' : Frame rs ws t u) : Frame rs ws s u := by
  obtain ⟨hreg, hbyte, hie, hparams, hfrag⟩ := h
  obtain ⟨hreg', hbyte', hie', hparams', hfrag'⟩ := h'
  exact ⟨fun r hr => (hreg' r hr).trans (hreg r hr), fun b hb => (hbyte' b hb).trans (hbyte b hb),
    hie'.trans hie, hparams.trans hparams', fun hnil => (hfrag' hnil).trans (hfrag hnil)⟩

theorem State.dropTop_frame (s : State) : Frame [7] [] s s.dropTop := s.setReg_frame 7 _

theorem State.dropTop_writeLoc_frame (s : State) (loc : Location) (v : Word) :
    Frame (7 :: loc.regs) loc.words s (s.dropTop.writeLoc loc v) :=
  (s.dropTop_frame.mono (List.cons_subset_cons _ (List.nil_subset _)) (List.nil_subset _)).trans
    ((s.dropTop.writeLoc_frame loc v).mono (List.subset_cons_self _ _) (List.Subset.refl _))

/-! ### `call`, `ret`, `reti` and `push` -/

/-- The word that a push stores is the one a pop would read. -/
theorem State.push_top {s : State} (hwf : s.mem.wf) (v : Word) : (s.push v).top = v := by
  rw [State.top, State.push_sp]
  exact Memory.readWord_writeWord_self hwf _ v

/-- An instruction that pushes `v` and leaves `pc` at `a` changes `r7`, the word under it and `pc` only. -/
theorem completes_of_push {i : Instr} {s : State} {v a : Word} (hwf : s.mem.wf)
    (hexec : exec i s = .next ((s.push v).jump a)) :
    Completes i s fun t =>
      t.pc = a ∧ t.reg 7 = s.reg 7 - 1 ∧ t.mem.readWord (s.reg 7 - 1) = v ∧ FlagsKept s t ∧
      Frame [7] [s.reg 7 - 1] s t :=
  ⟨_, hexec, rfl, s.push_sp v, Memory.readWord_writeWord_self hwf _ v, ⟨rfl, rfl⟩,
    (s.push_frame v).congr rfl rfl rfl rfl rfl⟩

/-- Settles O24: a push of the address after the instruction, then a jump. -/
theorem callPushesTheReturnAddress : Obligations.CallPushesTheReturnAddress := by
  refine ⟨fun w e1 e2 h => by simp only [decode, h], fun src s hwf => ?_⟩
  exact completes_of_push hwf rfl

/-- Settles O27: a push of the source, then the advance of `pc`. -/
theorem pushStoresBelowTheStack : Obligations.PushStoresBelowTheStack := by
  refine ⟨fun w e1 e2 h => by simp only [decode, h], fun src s hwf => ?_⟩
  obtain ⟨t, ht, hpc, hsp, hword, hkept⟩ := completes_of_push (i := .push src) hwf rfl
  exact ⟨t, ht, hsp, hword, hpc, hkept⟩

/-- Settles O25: a jump to the top of the stack, which is then dropped. -/
theorem retPopsThePc : Obligations.RetPopsThePc := by
  refine ⟨fun w e1 e2 h => by simp only [decode, h], fun s => ?_⟩
  exact ⟨_, rfl, rfl, s.dropTop_sp, ⟨rfl, rfl⟩, s.dropTop_frame.congr rfl rfl rfl rfl rfl⟩

/-- Settles O26: only `pc` is written. -/
theorem retiHasNoEffect : Obligations.RetiHasNoEffect := by
  refine ⟨fun w e1 e2 h => by simp only [decode, h], fun s => ?_⟩
  exact ⟨_, rfl, rfl, ⟨rfl, rfl⟩, .of_eq rfl rfl rfl rfl rfl⟩

/-- Settles O31: `ret` finds at `r7` the address that `call` pushed, and undoes its decrement. -/
theorem callThenRetReturns : Obligations.CallThenRetReturns := by
  intro src s hwf
  obtain ⟨t, ht, -, hsp, hword, -⟩ := callPushesTheReturnAddress.2 src s hwf
  refine ⟨t, ht, fun v hv hkept => ?_⟩
  obtain ⟨u, hu, hpc, hreg, -⟩ := retPopsThePc.2 v
  refine ⟨u, hu, ?_, ?_⟩
  · rw [hreg, hv, hsp, BitVec.sub_add_cancel]
  · rw [hpc, hv, hkept, hsp, hword]

/-! ### `pop` -/

theorem exec_pop_of_order {s t : State} {dst : Operand}
    (hcheck : ¬ (s.strictDstMode0 = true ∧ dst.mode = 0)) (h : s.popInOrder s.popVariant dst = t) :
    exec (.pop dst) s = .next (t.advance (lengthD dst)) := by
  rw [← h, ← State.popInto_eq]
  exact if_neg hcheck

/-- An instruction that writes `v` to `r7` and leaves `pc` at `a` changes nothing else. -/
theorem completes_of_setSp {i : Instr} {s : State} {v a : Word}
    (hexec : exec i s = .next ((s.setSp v).jump a)) :
    Completes i s fun t => t.reg 7 = v ∧ t.pc = a ∧ FlagsKept s t ∧ Frame [7] [] s t :=
  ⟨_, hexec, s.setReg_reg_self 7 v, rfl, ⟨rfl, rfl⟩, (s.setReg_frame 7 v).congr rfl rfl rfl rfl rfl⟩

/-- `pop r7`: order `A` increments the popped word, the others write it over the incremented `r7`
(44_control_stack.md R193). -/
theorem State.popInOrder_reg_sp (s : State) (v : PopVariant) :
    s.popInOrder v (.reg 7) = s.setSp (if v = .variantA then s.top + 1 else s.top) := by
  cases v with
  | variantA =>
    show (s.setReg 7 s.top).setReg 7 ((s.setReg 7 s.top).reg 7 + 1) = s.setReg 7 (s.top + 1)
    rw [State.setReg_reg_self, State.setReg_setReg]
  | variantB | variantC => exact s.setReg_setReg 7 _ _

/-- `pop [r7]`: order `C` finds the location after the increment, the others before it
(44_control_stack.md R193). -/
theorem State.popInOrder_ind_sp (s : State) (v : PopVariant) :
    s.popInOrder v (.ind 7) = s.dropTop.writeWord (if v = .variantC then s.sp + 1 else s.sp) s.top := by
  cases v with
  | variantA | variantB => rfl
  | variantC => exact congrArg (s.dropTop.writeWord · s.top) s.dropTop_sp

/-- `pop` with destination mode 0: order `B` does nothing, the others drop the top
(44_control_stack.md R193). -/
theorem State.popInOrder_imm (s : State) (v : PopVariant) (n : Word) :
    s.popInOrder v (.imm n) = s.setSp (if v = .variantB then s.sp else s.sp + 1) := by
  cases v with
  | variantA | variantC => rfl
  | variantB => exact (s.setReg_reg_eq_self 7).symm

/-- Settles O29: the state that each order gives, and the check of destination mode 0. -/
theorem popFollowsItsVariant : Obligations.PopFollowsItsVariant := by
  intro s hwf
  refine ⟨?reg, ?ind, fun n hstrict => ?tolerant, fun n hstrict => ?strict⟩
  case reg => exact completes_of_setSp (exec_pop_of_order (by simp [Operand.mode]) (s.popInOrder_reg_sp _))
  case ind =>
    refine ⟨_, exec_pop_of_order (by simp [Operand.mode]) (s.popInOrder_ind_sp _), ?_⟩
    exact ⟨Memory.readWord_writeWord_self hwf _ _, s.dropTop_sp, rfl, ⟨rfl, rfl⟩,
      (s.dropTop_writeLoc_frame (.mem _) _).congr rfl rfl rfl rfl rfl⟩
  case tolerant => exact completes_of_setSp (exec_pop_of_order (by simp [hstrict]) (s.popInOrder_imm _ n))
  case strict => exact exec_fault_iff.2 ⟨.imm n, rfl, hstrict, rfl, rfl⟩

/-- A destination that names a location, but for `r7` and `[r7]`, gets the popped word in every order
(44_control_stack.md R188), and its location is not `r7`. -/
theorem State.popInOrder_of_location {s : State} {dst : Operand} {loc : Location} (hreg : dst ≠ .reg 7)
    (hind : dst ≠ .ind 7) (hloc : s.destLocation dst = some loc) (v : PopVariant) :
    s.popInOrder v dst = s.dropTop.writeLoc loc s.top ∧ loc ≠ .reg 7 := by
  have horder : popOrderMatters dst = false := by
    cases dst with
    | imm n => cases hloc
    | reg r => exact beq_false_of_ne fun e => hreg (congrArg Operand.reg e)
    | abs a => rfl
    | ind r => exact beq_false_of_ne fun e => hind (congrArg Operand.ind e)
  constructor
  · rw [s.popInOrder_eq_of_not_matters v horder, ← s.popInOrder_eq_of_not_matters .variantB horder]
    show s.popWithinUpdate dst = _
    rw [State.popWithinUpdate, hloc]
  · rintro rfl
    cases dst <;> cases hloc
    exact hreg rfl

/-- Settles O28: every order gives the state in which `r7` is incremented and the location written. -/
theorem popMovesTheTopOfTheStack : Obligations.PopMovesTheTopOfTheStack := by
  refine ⟨fun w e1 e2 h => by simp only [decode, h], fun dst loc s hwf hreg hind hloc => ?_⟩
  obtain ⟨hpop, hne⟩ := State.popInOrder_of_location hreg hind hloc s.popVariant
  have hmode : dst.mode ≠ 0 := mt (s.destLocation_eq_none_iff dst).2 (by simp [hloc])
  refine ⟨_, exec_pop_of_order (fun h => hmode h.2) hpop, ?_, ?_, ?_, by simp [FlagsKept], ?_⟩
  · rw [State.advance_readLoc]
    exact State.readLoc_writeLoc_self (s := s.dropTop) hwf loc _
  · exact (s.dropTop.writeLoc_reg_of_ne _ hne).trans s.dropTop_sp
  · rw [State.advance_pc, State.writeLoc_pc]; rfl
  · exact (s.dropTop_writeLoc_frame loc _).congr rfl rfl rfl rfl rfl

/-- Settles O30: `pop` reads what `push` stored, and undoes its decrement. -/
theorem pushThenPopRestoresTheStack : Obligations.PushThenPopRestoresTheStack := by
  intro src dst s hwf hreg hind
  refine ⟨_, rfl, fun loc hloc => ?_⟩
  obtain ⟨u, hu, hval, hsp, -⟩ :=
    popMovesTheTopOfTheStack.2 dst loc _ (Memory.writeWord_wf hwf _ _) hreg hind hloc
  refine ⟨u, hu, hsp.trans ?_, hval.trans (State.push_top hwf _)⟩
  calc (s.push (s.source src)).sp + 1
      = s.sp - 1 + 1 := congrArg (· + 1) (s.push_sp _)
    _ = s.sp := BitVec.sub_add_cancel _ _

/-! ### Jumps -/

/-- Settles O32: only `pc` is written. -/
theorem jmpSetsThePc : Obligations.JmpSetsThePc := by
  refine ⟨fun w e1 e2 h => by simp only [decode, h], fun src s => ?_⟩
  exact ⟨_, rfl, rfl, ⟨rfl, rfl⟩, .of_eq rfl rfl rfl rfl rfl⟩

/-- A conditional jump writes `pc` only: the source where the condition `P` holds, else the address after
the instruction (44_control_stack.md R196). -/
theorem completes_of_jumpIf {i : Instr} {src : Operand} {s : State} {cond : Bool} {P : Prop} [Decidable P]
    (hexec : exec i s = s.jumpIf cond src) (hP : cond = true ↔ P) :
    Completes i s fun t =>
      t.pc = (if P then s.source src else s.pc + BitVec.ofNat 16 (1 + src.sourceWords.length)) ∧
      FlagsKept s t ∧ Frame [] [] s t := by
  refine ⟨_, hexec, ?_⟩
  simp only [hP]
  split <;> exact ⟨rfl, ⟨rfl, rfl⟩, .of_eq rfl rfl rfl rfl rfl⟩

/-- Settles O33: the four conditions, one flag or its negation each. -/
theorem conditionalJumpsTestOneFlag : Obligations.ConditionalJumpsTestOneFlag := by
  refine ⟨⟨?decodeJz, ?decodeJnz, ?decodeJc, ?decodeJnc⟩, fun src s => ⟨?jz, ?jnz, ?jc, ?jnc⟩⟩
  case decodeJz | decodeJnz | decodeJc | decodeJnc => exact fun w e1 e2 h => by simp only [decode, h]
  case jz | jc => exact completes_of_jumpIf rfl Iff.rfl
  case jnz | jnc => exact completes_of_jumpIf rfl (by simp)

end Sys2Proof.Machine
end

section
/-! PROOFS. The one-word instructions without operands: the flag instructions, `halt` and the unrecognised
opcodes, and the reply of a STEP whose word has their opcode. -/

namespace Sys2Proof.Machine

/-! ### The instruction a STEP executes -/

theorem State.fetch_of_decodesN {k : Nat} {i : Instr} {s : State} (hdecode : DecodesN k i)
    (hop : s.opcodeAtPc = k) : s.fetch = i :=
  hdecode _ _ _ hop

/-- A STEP of an opcode that any fields make `i` gives the state `i` completes in, and the status of the
opcode (40_operands.md R100). -/
theorem transact_step_of_completes {k : Nat} {i : Instr} {s : State} {P : State → Prop}
    (hdecode : DecodesN k i) (hop : s.opcodeAtPc = k) (h : Completes i s P) :
    ∃ t, transact .step s = .next (t, .status (if k = 28 then .halted else .continuing)) ∧ P t := by
  obtain ⟨t, hexec, ht⟩ := h
  have hstep : step s = .next t := by rw [step, State.fetch_of_decodesN hdecode hop, hexec]
  exact ⟨t, by rw [transact_step, stepReply_of_next hstep, stepStatus_eq, hop], ht⟩

/-! ### What the instructions leave unchanged -/

theorem State.advance_frame (s : State) (n : Nat) : Frame [] [] s (s.advance n) :=
  .of_eq rfl rfl rfl rfl rfl

/-- An instruction that is only the advance of `pc` past its word. -/
theorem completes_of_advance {i : Instr} {s : State} (hexec : exec i s = .next (s.advance 1)) :
    Completes i s fun t => t.pc = s.pc + 1 ∧ FlagsKept s t ∧ Frame [] [] s t :=
  ⟨_, hexec, rfl, ⟨rfl, rfl⟩, s.advance_frame 1⟩

/-- An instruction that writes `b` to `C`, before the advance of `pc`. -/
theorem completes_of_setC {i : Instr} {s : State} {b : Bool}
    (hexec : exec i s = .next ((s.setC b).advance 1)) :
    Completes i s fun t => t.c = b ∧ t.z = s.z ∧ t.pc = s.pc + 1 ∧ Frame [] [] s t :=
  ⟨_, hexec, rfl, rfl, rfl, .of_eq rfl rfl rfl rfl rfl⟩

/-- An instruction that writes `b` to `IE`, before the advance of `pc`. -/
theorem completes_of_setIe {i : Instr} {s : State} {b : Bool}
    (hexec : exec i s = .next ((s.setIe b).advance 1)) :
    Completes i s fun t => t.ie = b ∧ FlagsKept s t ∧ t.pc = s.pc + 1 ∧ Frame [] [] (s.setIe b) t :=
  ⟨_, hexec, rfl, ⟨rfl, rfl⟩, rfl, (s.setIe b).advance_frame 1⟩

/-! ### The obligations -/

/-- Settles O34: a write of `C` or of `IE`, each to one of its two values. -/
theorem flagInstructionsWriteOneFlag : Obligations.FlagInstructionsWriteOneFlag := by
  refine ⟨⟨?decodeStc, ?decodeClc, ?decodeEi, ?decodeDi⟩, fun s => ⟨?stc, ?clc, ?ei, ?di⟩⟩
  case decodeStc | decodeClc | decodeEi | decodeDi => exact fun w e1 e2 h => by simp only [decode, h]
  case stc | clc => exact completes_of_setC rfl
  case ei | di => exact completes_of_setIe rfl

/-- Settles O35: only `pc` is written, and 28 is the opcode whose status is `halted`. -/
theorem haltReturnsHalted : Obligations.HaltReturnsHalted := by
  have hdecode : DecodesN 28 .halt := fun w e1 e2 h => by simp only [decode, h]
  exact ⟨hdecode, fun s => completes_of_advance rfl, fun s hop =>
    transact_step_of_completes hdecode hop (completes_of_advance rfl)⟩

/-- Settles O36: only `pc` is written, and none of the four opcodes is 28. -/
theorem unrecognisedOpcodesDoNothing : Obligations.UnrecognisedOpcodesDoNothing := by
  have h0 : DecodesN 0 .unrecognised0 := fun w e1 e2 h => by simp only [decode, h]
  have h29 : DecodesN 29 .unrecognised29 := fun w e1 e2 h => by simp only [decode, h]
  have h30 : DecodesN 30 .unrecognised30 := fun w e1 e2 h => by simp only [decode, h]
  have h31 : DecodesN 31 .unrecognised31 := fun w e1 e2 h => by simp only [decode, h]
  refine ⟨⟨h0, h29, h30, h31⟩, fun i hi s => ?_, fun s hop => ?_⟩
  · fin_cases hi <;> exact completes_of_advance rfl
  · simp only [List.mem_cons, List.not_mem_nil, or_false] at hop
    obtain hop | hop | hop | hop := hop
    · exact transact_step_of_completes h0 hop (completes_of_advance rfl)
    · exact transact_step_of_completes h29 hop (completes_of_advance rfl)
    · exact transact_step_of_completes h30 hop (completes_of_advance rfl)
    · exact transact_step_of_completes h31 hop (completes_of_advance rfl)

end Sys2Proof.Machine
end

section
/-! PROOFS. Exceptions: the strict mode is the only cause of a fault (60_exceptions.md R230, R232), and the
debug accessors only read (R244). -/

namespace Sys2Proof.Machine

theorem strictDstMode0_of_step_fault {s : State} {f : Fault} (h : step s = .fault f) :
    s.strictDstMode0 = true :=
  ((stepFaultsExactlyAtStrictModeZero s f).1 h).1

/-- With the strict mode off, every step completes. -/
theorem step_completes_of_not_strict {s : State} (hs : s.strictDstMode0 = false) :
    ∃ t, step s = .next t := by
  cases h : step s with
  | next t => exact ⟨t, rfl⟩
  | fault f => exact absurd (strictDstMode0_of_step_fault h) (by simp [hs])
  | refused q => exact absurd h (step_ne_refused s q)

/-- Settles O12: a step completes, for it is not refused and its one fault is the strict mode's. -/
theorem noStepTraps : Obligations.NoStepTraps :=
  ⟨rfl, fun _ => step_completes_of_not_strict, step_ne_refused, fun _ _ => strictDstMode0_of_step_fault⟩

/-- Settles O42: each accessor's arm of `transact` gives back the state itself. -/
theorem debugAccessorsOnlyRead : Obligations.DebugAccessorsOnlyRead :=
  fun _ _ => ⟨rfl, rfl, rfl, rfl⟩

end Sys2Proof.Machine
end

section
/-! PROOFS. RESET: which sizes are a legal `FRAGMENT_SIZE`, and what RESET answers for each. -/

namespace Sys2Proof.Machine

theorem legalFragLog_eq_none_iff {n : Nat} :
    legalFragLog n = none ↔ ∀ k : Fin 18, n ≠ 2 ^ k.val := by
  simp [legalFragLog, @eq_comm Nat n]

/-- Powers of two differ where their exponents do, so the search can find no other logarithm. -/
theorem legalFragLog_two_pow (k : Fin 18) : legalFragLog (2 ^ k.val) = some k := by
  cases h : legalFragLog (2 ^ k.val) with
  | none => exact absurd rfl (legalFragLog_eq_none_iff.1 h k)
  | some j =>
    have hpow : 2 ^ j.val = 2 ^ k.val := by simpa using List.find?_some h
    exact congrArg some (Fin.ext (Nat.pow_right_injective le_rfl hpow))

theorem resetReply_of_legal {n : Nat} {k : Fin 18} (h : legalFragLog n = some k) (initByte : Byte)
    (s : State) : resetReply initByte n s =
      .next (State.construct initByte k s.strictDstMode0 s.popVariant, .none) := by
  rw [resetReply, h]

theorem resetReply_of_illegal {n : Nat} (h : legalFragLog n = none) (initByte : Byte) (s : State) :
    resetReply initByte n s = .refused (.illegalFragmentSize n) := by
  rw [resetReply, h]

/-- Settles O44: RESET asks for the size's logarithm, which exactly the legal sizes have. -/
theorem resetTakesOnlyLegalFragmentSizes : Obligations.ResetTakesOnlyLegalFragmentSizes :=
  fun initByte s =>
    ⟨fun k => resetReply_of_legal (legalFragLog_two_pow k) initByte s,
      fun _ hn => resetReply_of_illegal (legalFragLog_eq_none_iff.2 hn) initByte s⟩

end Sys2Proof.Machine
end
